-- ==== Sys2Proof/Word.lean ====
section
/-! DEFINITION. The value types of CKSUM16 and one transaction on its command port. -/

namespace Sys2Proof

/-- One byte of the stream (rule R41). -/
abbrev Byte := BitVec 8

/-- The checksum and accumulator width `W` = 16 (rule R7). -/
abbrev Word := BitVec 16

/-- The DATA port width `DW` = 32 (rule R7). -/
abbrev Data := BitVec 32

/-- One transaction: CMD and DATA, sampled together (rule R60). The format is `CMD8+DATA32`. -/
structure Command where
  cmd  : BitVec 8
  data : Data
  deriving DecidableEq, Repr

end Sys2Proof
end

