-- ==== Sys2Proof/Syntax.lean ====
section
/-! DEFINITION. The six commands of rule R62, one constructor per row of spec/opcode_table.json. -/

namespace Sys2Proof

/-- A defined command with its DATA. NOP and CLEAR ignore DATA (rule R65) but carry it, since any raw
pair may be presented (rule R69). -/
inductive Instr where
  /-- CMD 0x00, rule R80. -/
  | nop (data : Data)
  /-- CMD 0x01, rule R81. -/
  | clear (data : Data)
  /-- CMD 0x10, rule R93. -/
  | add8 (data : Data)
  /-- CMD 0x11, rule R94. -/
  | add16 (data : Data)
  /-- CMD 0x12, rule R95. -/
  | add24 (data : Data)
  /-- CMD 0x13, rule R96. -/
  | add32 (data : Data)
  deriving DecidableEq, Repr

/-- The DATA field of a command. -/
def Instr.data : Instr → Data
  | .nop d => d
  | .clear d => d
  | .add8 d => d
  | .add16 d => d
  | .add24 d => d
  | .add32 d => d

end Sys2Proof
end

