-- ==== Sys2Proof/WellFormed.lean ====
section
/-! DEFINITION. Which commands an assembler line of rule R69 can stand for. The block itself accepts
every command, well-formed or not (rules R65 and R132; log 7). -/

namespace Sys2Proof

/-- Rule R69: NOP and CLEAR are encoded with DATA 0, and an `imm` fits the width of its ADD. -/
def Instr.wellFormed : Instr → Bool
  | .nop d => d == 0
  | .clear d => d == 0
  | .add8 d => decide (d.toNat < 2 ^ 8)
  | .add16 d => decide (d.toNat < 2 ^ 16)
  | .add24 d => decide (d.toNat < 2 ^ 24)
  | .add32 _ => true

end Sys2Proof
end

