-- ==== Sys2Proof/Decode.lean ====
section
/-! DEFINITION. The decoder, total on the 256 CMD values (rule R67), and the encoder written from the
opcode map (rules R61 to R63). -/

namespace Sys2Proof

/-- Why a CMD value is reserved: the three classes of rule R66. -/
inductive Reserved where
  /-- `OP = 0` with `SUB` in 2..15: 14 values. -/
  | controlSub
  /-- `OP = 1` with `SUBRES` not 00: 12 values. -/
  | addSubres
  /-- `OP` in 2..15: 224 values. -/
  | operationClass
  deriving DecidableEq, Repr

/-- `OP = CMD[7:4]` (rule R61). -/
def Command.op (c : Command) : BitVec 4 := c.cmd.extractLsb' 4 4

/-- `SUB = CMD[3:0]` (rule R61). -/
def Command.sub (c : Command) : BitVec 4 := c.cmd.extractLsb' 0 4

/-- `SUBRES = CMD[3:2]` (rule R61). -/
def Command.subres (c : Command) : BitVec 2 := c.cmd.extractLsb' 2 2

/-- `NM1 = CMD[1:0]`, the byte count minus 1 (rule R61). -/
def Command.nm1 (c : Command) : BitVec 2 := c.cmd.extractLsb' 0 2

/-- The ADD of `nm1 + 1` bytes (rule R63). -/
def addOfNm1 (nm1 : BitVec 2) (d : Data) : Instr :=
  if nm1 = 0 then .add8 d
  else if nm1 = 1 then .add16 d
  else if nm1 = 2 then .add24 d
  else .add32 d

/-- The class of a reserved CMD, by its `OP` (rule R66). -/
def Command.reservedClass (c : Command) : Reserved :=
  if c.op = 0 then .controlSub
  else if c.op = 1 then .addSubres
  else .operationClass

/-- Rule R67, `decode(CMD[7:0])`, with the DATA of the same transaction (rule R60). -/
def decode (c : Command) : Except Reserved Instr :=
  if c.cmd = 0x00 then .ok (.nop c.data)
  else if c.cmd = 0x01 then .ok (.clear c.data)
  else if c.op = 1 ∧ c.subres = 0 then .ok (addOfNm1 c.nm1 c.data)
  else .error c.reservedClass

/-- `CMD = {OP, SUB}` of each command (rules R61 and R62); for an ADD, `SUB = {SUBRES, NM1}`. -/
def Instr.cmd : Instr → BitVec 8
  | .nop _ => (0 : BitVec 4) ++ (0 : BitVec 4)
  | .clear _ => (0 : BitVec 4) ++ (1 : BitVec 4)
  | .add8 _ => (1 : BitVec 4) ++ (0 : BitVec 2) ++ (0 : BitVec 2)
  | .add16 _ => (1 : BitVec 4) ++ (0 : BitVec 2) ++ (1 : BitVec 2)
  | .add24 _ => (1 : BitVec 4) ++ (0 : BitVec 2) ++ (2 : BitVec 2)
  | .add32 _ => (1 : BitVec 4) ++ (0 : BitVec 2) ++ (3 : BitVec 2)

/-- The transaction that presents an instruction (rules R60 and R62). -/
def encode (i : Instr) : Command := ⟨i.cmd, i.data⟩

/-- A transaction as one number of 40 bits: CMD in bits 7..0 and DATA in bits 39..8.
DESIGN CHOICE, safe: the spec puts the two fields on two ports and numbers no common word (log 5). -/
def Command.toTableWord (c : Command) : Nat := c.cmd.toNat + 2 ^ 8 * c.data.toNat

/-- The transaction a 40-bit number stands for, the inverse of `Command.toTableWord` (log 5). -/
def Command.ofTableWord (w : Nat) : Command := ⟨BitVec.ofNat 8 w, BitVec.ofNat 32 (w / 2 ^ 8)⟩

/-- What the decoder reads from an opcode-table word of `nbits` bits, every bit above them 0. -/
def decodeTableWord (nbits w : Nat) : Option Instr :=
  (decode (Command.ofTableWord (w % 2 ^ nbits))).toOption

end Sys2Proof
end

