-- ==== Sys2Proof/Machine/Operands.lean ====
section
/-! DEFINITION. Operand assembly: the bytes of DATA, the range of DATA, and concatenation
(rules R8, R43 and R64). -/

namespace Sys2Proof.Machine

/-- `DATA[8i+7 : 8i]` (rule R92). -/
def dataByte (i : Nat) (d : Data) : Byte := d.extractLsb' (8 * i) 8

/-- The low `n` bytes of DATA, most significant first (rule R43). -/
def dataBytes : Nat → Data → List Byte
  | 0, _ => []
  | n + 1, d => dataByte n d :: dataBytes n d

/-- `{a8, b8} = (a8 << 8) | b8` (rule R8): a big-endian word (rule R42). -/
def bytePair (high low : Byte) : Word := high ++ low

/-- DATA built from four bytes, the first the most significant: the inverse of `dataBytes 4`. -/
def dataOfBytes (b3 b2 b1 b0 : Byte) : Data := b3 ++ b2 ++ b1 ++ b0

/-- `v < 2^(8 * nbytes)` (rule R64). -/
def inRange (nbytes : Nat) (d : Data) : Bool := decide (d.toNat < 2 ^ (8 * nbytes))

end Sys2Proof.Machine
end

