-- ==== Sys2Proof/Config.lean ====
section
/-! DEFINITION. What the spec leaves unspecified: the contents of the five state elements between
power-up and the first reset (rules R33 and R152). Each is a free value: a constant with no body. -/

namespace Sys2Proof.Config

/-- `ACC` at power-up, unspecified (rule R33). DESIGN CHOICE, safe: a free value (log 4). -/
opaque powerUpAcc : Word

/-- `HOLD` at power-up, unspecified (rule R33). DESIGN CHOICE, safe: a free value (log 4). -/
opaque powerUpHold : Byte

/-- `ODD` at power-up, unspecified (rule R33). DESIGN CHOICE, safe: a free value (log 4). -/
opaque powerUpOdd : Bool

/-- `ERR_ILLEGAL` at power-up, unspecified (rule R33). DESIGN CHOICE, safe: a free value (log 4). -/
opaque powerUpErrIllegal : Bool

/-- `ERR_RANGE` at power-up, unspecified (rule R33). DESIGN CHOICE, safe: a free value (log 4). -/
opaque powerUpErrRange : Bool

end Sys2Proof.Config
end

