-- ==== Sys2Proof/Machine/State.lean ====
section
/-! DEFINITION. The state of CKSUM16 (rule R20), the host's coming port samples, the reasons a run
can stop, and the states after reset and at power-up. -/

namespace Sys2Proof.Machine

/-- The inputs the block samples at one rising edge of `clk` (rule R29). -/
structure PortSample where
  rst      : Bool
  cmdValid : Bool
  cmd      : BitVec 8
  data     : Data
  deriving DecidableEq, Repr

/-- The architectural state is the first five fields, the tuple of rule R20. The last two are the
model's own (logs 1 and 3). -/
structure State where
  /-- `ACC`: the folded sum of the complete words of the stream (rule R21). -/
  acc        : Word
  /-- `HOLD`: the pending high byte (rule R22). -/
  hold       : Byte
  /-- `ODD`: the stream length modulo 2 (rule R23). -/
  odd        : Bool
  /-- `ERR_ILLEGAL`, sticky (rule R25). -/
  errIllegal : Bool
  /-- `ERR_RANGE`, sticky (rule R26). -/
  errRange   : Bool
  /-- MODEL'S OWN: a reset edge or a CLEAR has happened since power-up (rules R33 and R153). -/
  defined    : Bool
  /-- MODEL'S OWN: what the host will drive on the input ports, oldest first (rule R14). -/
  input      : List PortSample
  deriving DecidableEq, Repr

/-- The reasons a run stops with a fault. -/
inductive Fault where
  /-- Raised by every command other than CLEAR, and by every output read, while the state is
  unspecified before the first reset (rule R33, U1). Safe: no value is invented. -/
  | beforeFirstReset
  deriving DecidableEq, Repr

/-- The reasons a step has no meaning. -/
inductive Refusal where
  /-- Raised by an arm of `exec` without a meaning; no arm is one. Safe. -/
  | notModelled (mnemonic : String)
  /-- Raised by `step` when the host presents no further command: the step relation has one step per
  accepted command "and no other steps" (rule R154), so there is none to take. No command raises it.
  Safe: the state is not lost to a claim, since `clockEdge` says what every edge does (log 2). -/
  | noCommandPresented
  deriving DecidableEq, Repr

/-- After a reset edge (rules R32 and R150), with no command presented. -/
def State.reset : State where
  acc        := 0x0000
  hold       := 0x00
  odd        := false
  errIllegal := false
  errRange   := false
  defined    := true
  input      := []

/-- Before the first reset (rules R33 and R152): every element is a free value (log 4). -/
def State.powerUp : State where
  acc        := Config.powerUpAcc
  hold       := Config.powerUpHold
  odd        := Config.powerUpOdd
  errIllegal := Config.powerUpErrIllegal
  errRange   := Config.powerUpErrRange
  defined    := false
  input      := []

end Sys2Proof.Machine
end

