-- ==== Sys2Proof/Machine/Ops.lean ====
section
/-! DEFINITION. The operations the commands share: `fold` and `(+)` (rules R9 and R10), the byte step
(rule R90), emptying the state (rule R81), and reporting an error (rules R130 to R132), which on this
block stands where other machines take an exception. -/

namespace Sys2Proof.Machine

/-- The loop of rule R9, for at most `fuel` iterations. -/
def foldLoop : Nat → Nat → Nat
  | 0, x => x
  | fuel + 1, x => if x > 0xFFFF then foldLoop fuel ((x &&& 0xFFFF) + (x >>> 16)) else x

/-- `fold(x)` of rule R9. Every iteration lowers `x`, so `x` iterations are enough (log 10). -/
def fold (x : Nat) : Nat := foldLoop x x

/-- `a (+) b = fold(a + b)` (rule R10). -/
def ocAdd (a b : Word) : Word := BitVec.ofNat 16 (fold (a.toNat + b.toNat))

/-- The even-offset half of the byte step: the byte becomes pending (rule R90). -/
def holdByte (b : Byte) (s : State) : State := { s with hold := b, odd := true }

/-- The odd-offset half of the byte step: `{HOLD, b}` is added (rule R90). -/
def completeWord (b : Byte) (s : State) : State :=
  { s with acc := ocAdd s.acc (bytePair s.hold b), hold := 0x00, odd := false }

/-- `ByteStep(b)` (rule R90). -/
def byteStep (s : State) (b : Byte) : State :=
  if s.odd then completeWord b s else holdByte b s

/-- The byte steps of several bytes, in order (rule R92). -/
def appendBytes (bs : List Byte) (s : State) : State := bs.foldl byteStep s

/-- The writes of CLEAR (rule R81). They define every state element (rule R153). -/
def clearAll (s : State) : State :=
  { s with
    acc := 0x0000, hold := 0x00, odd := false, errIllegal := false, errRange := false,
    defined := true }

/-- The state after a reset edge (rule R150). The host's coming samples are no state of the block. -/
def resetEdge (s : State) : State := { State.reset with input := s.input }

/-- `ERR_ILLEGAL <- 1` and nothing else (rule R131). -/
def reportIllegal (s : State) : State := { s with errIllegal := true }

/-- `ERR_RANGE <- 1` and nothing else (rule R132). -/
def reportRange (s : State) : State := { s with errRange := true }

/-- The effect `t` of a command other than CLEAR on `s`: before the first reset it faults
(rule R33, U1; log 3). -/
def whenDefined (s t : State) : Host.Outcome State Fault Refusal :=
  if s.defined then .next t else .fault .beforeFirstReset

/-- `ADD(nbytes, DATA)` (rule R92). -/
def addCommand (nbytes : Nat) (d : Data) (s : State) : Host.Outcome State Fault Refusal :=
  whenDefined s (if inRange nbytes d then appendBytes (dataBytes nbytes d) s else reportRange s)

end Sys2Proof.Machine
end

