-- ==== Sys2Proof/Machine/Accumulate.lean ====
section
/-! DEFINITION. The accumulate commands (41_accumulate.md), each `ADD(nbytes, DATA)` of rule R92. -/

namespace Sys2Proof.Machine

/-- ADD8 (rule R93): append `DATA[7:0]`. -/
def execAdd8 (d : Data) (s : State) : Host.Outcome State Fault Refusal := addCommand 1 d s

/-- ADD16 (rule R94): append `DATA[15:8]`, `DATA[7:0]`. -/
def execAdd16 (d : Data) (s : State) : Host.Outcome State Fault Refusal := addCommand 2 d s

/-- ADD24 (rule R95): append `DATA[23:16]`, `DATA[15:8]`, `DATA[7:0]`. -/
def execAdd24 (d : Data) (s : State) : Host.Outcome State Fault Refusal := addCommand 3 d s

/-- ADD32 (rule R96): append `DATA[31:24]`, `DATA[23:16]`, `DATA[15:8]`, `DATA[7:0]`. -/
def execAdd32 (d : Data) (s : State) : Host.Outcome State Fault Refusal := addCommand 4 d s

end Sys2Proof.Machine
end

