-- ==== Sys2Proof/Machine/Control.lean ====
section
/-! DEFINITION. The control commands (40_control.md). -/

namespace Sys2Proof.Machine

/-- NOP (rule R80): `skip`; DATA is ignored (rule R65). -/
def execNop (_ : Data) (s : State) : Host.Outcome State Fault Refusal := whenDefined s s

/-- CLEAR (rule R81); DATA is ignored (rule R65). It defines the state whatever it was before, so it
also runs before the first reset (rule R153; log 3). -/
def execClear (_ : Data) (s : State) : Host.Outcome State Fault Refusal := .next (clearAll s)

end Sys2Proof.Machine
end

