-- ==== Sys2Proof/Machine/Dispatch.lean ====
section
/-! DEFINITION. One arm per command: the meaning of each. -/

namespace Sys2Proof.Machine

def exec (i : Instr) (s : State) : Host.Outcome State Fault Refusal :=
  match i with
  | .nop d => Sys2Proof.Machine.execNop d s
  | .clear d => Sys2Proof.Machine.execClear d s
  | .add8 d => Sys2Proof.Machine.execAdd8 d s
  | .add16 d => Sys2Proof.Machine.execAdd16 d s
  | .add24 d => Sys2Proof.Machine.execAdd24 d s
  | .add32 d => Sys2Proof.Machine.execAdd32 d s

end Sys2Proof.Machine
end

