-- ==== Sys2Proof/Machine/Flags.lean ====
section
/-! DEFINITION. The readout values SUM and CSUM, the computed flag ZERO and the STATUS word
(rules R30 and R110 to R112). The stored flags ODD, ERR_ILLEGAL and ERR_RANGE are fields of State,
written by the operations of Ops.lean. -/

namespace Sys2Proof.Machine

/-- `SUM = ACC (+) {HOLD, 0x00}` (rule R110). -/
def State.sum (s : State) : Word := ocAdd s.acc (bytePair s.hold 0x00)

/-- `CSUM = ~16 SUM` (rule R111). -/
def State.csum (s : State) : Word := ~~~ s.sum

/-- `ZERO`: CSUM is 0x0000 (rule R112). -/
def State.zero (s : State) : Bool := s.csum == 0x0000

/-- `STATUS = {HOLD, 0b0000, ERR_RANGE, ERR_ILLEGAL, ZERO, ODD}` (rule R30). -/
def State.status (s : State) : Word :=
  s.hold ++ (0 : BitVec 4) ++ BitVec.ofBool s.errRange ++ BitVec.ofBool s.errIllegal
    ++ BitVec.ofBool s.zero ++ BitVec.ofBool s.odd

end Sys2Proof.Machine
end

