-- ==== Sys2Proof/Machine/Outputs.lean ====
section
/-! DEFINITION. The ports of rule R29, what an output port shows (rules R110 to R113), reading one
(rules R33 and R47), and the open parameter PLATFORM_REG_MAP (rules R31 and R48). -/

namespace Sys2Proof.Machine

/-- The ten ports of rule R29. -/
inductive PortName where
  | clk | rst | cmdValid | cmd | data
  | cmdReady | sumOut | csumOut | accOut | statusOut
  deriving DecidableEq, Repr

/-- The direction of a port (rule R29). -/
inductive Direction where
  | input | output
  deriving DecidableEq, Repr

/-- The direction column of rule R29. -/
def PortName.direction : PortName → Direction
  | .clk => .input
  | .rst => .input
  | .cmdValid => .input
  | .cmd => .input
  | .data => .input
  | .cmdReady => .output
  | .sumOut => .output
  | .csumOut => .output
  | .accOut => .output
  | .statusOut => .output

/-- The width column of rule R29. -/
def PortName.width : PortName → Nat
  | .clk => 1
  | .rst => 1
  | .cmdValid => 1
  | .cmd => 8
  | .data => 32
  | .cmdReady => 1
  | .sumOut => 16
  | .csumOut => 16
  | .accOut => 16
  | .statusOut => 16

/-- `cmd_ready` is constantly 1 (rules R29 and R154). -/
def cmdReady (_ : State) : Bool := true

/-- The five output ports together, as they stand in one cycle. -/
structure Outputs where
  cmdReady : Bool
  sum      : Word
  csum     : Word
  acc      : Word
  status   : Word
  deriving DecidableEq, Repr

/-- The outputs, functions of the state alone (rules R29, R110, R111, R113 and R30). -/
def State.outputs (s : State) : Outputs where
  cmdReady := Sys2Proof.Machine.cmdReady s
  sum      := s.sum
  csum     := s.csum
  acc      := s.acc
  status   := s.status

/-- What a host reads on the outputs. Before the first reset no output has a defined value, and a
read faults (rules R33 and R152; log 3). -/
def readOutputs (s : State) : Except Fault Outputs :=
  if s.defined then .ok s.outputs else .error .beforeFirstReset

/-- The bits of an output port; an input port shows none. -/
def Outputs.port (o : Outputs) : PortName → Option Nat
  | .clk => none
  | .rst => none
  | .cmdValid => none
  | .cmd => none
  | .data => none
  | .cmdReady => some o.cmdReady.toNat
  | .sumOut => some o.sum.toNat
  | .csumOut => some o.csum.toNat
  | .accOut => some o.acc.toNat
  | .statusOut => some o.status.toNat

/-- PLATFORM_REG_MAP: where a platform puts the ports (rules R31 and R48). OPEN in the spec (D20), so
the model takes it as an argument and fixes none (log 8). -/
abbrev PlatformRegMap := List (Nat × PortName)

/-- A platform's read of an address. At an output port it is the host's read of that port, which faults
before the first reset (rule R33). At an address with no port, or mapped to an input port, it answers
`none` in every state, before the first reset too: the spec is silent there, and rule R33's fault is
for output reads. DESIGN CHOICE (log 8). Reading has no side effect (rule R47), so the state is not
returned. -/
def platformRead (m : PlatformRegMap) (address : Nat) (s : State) : Except Fault (Option Nat) :=
  match m.lookup address with
  | none => .ok none
  | some p =>
    match p.direction with
    | .input => .ok none
    | .output => (readOutputs s).map (fun o => o.port p)

end Sys2Proof.Machine
end

