-- ==== Sys2Proof/Machine/Ports.lean ====
section
/-! DEFINITION. The command port: what one rising edge of `clk` does (rules R68, R84, R150 and R154),
what the outputs show in that cycle (rule R155), and how a step takes the host's next command. -/

namespace Sys2Proof.Machine

/-- The block accepts a command (rule R154): decode comes first (rule R134); a reserved CMD sets
`ERR_ILLEGAL` and changes nothing else (rule R131). -/
def accept (c : Command) (s : State) : Host.Outcome State Fault Refusal :=
  match decode c with
  | .ok i => exec i s
  | .error _ => whenDefined s (reportIllegal s)

/-- The commands of a list accepted one after another, in order (rule R49). -/
def acceptAll : List Command → State → Host.Outcome State Fault Refusal
  | [], s => .next s
  | c :: rest, s =>
    match accept c s with
    | .next t => acceptAll rest t
    | .fault r => .fault r
    | .refused r => .refused r

/-- One rising edge of `clk`: reset wins over a command (rule R150), a valid command is accepted
(rule R154), and an idle edge writes no state (rules R68 and R84). -/
def clockEdge (p : PortSample) (s : State) : Host.Outcome State Fault Refusal :=
  if p.rst then .next (resetEdge s)
  else if p.cmdValid then accept ⟨p.cmd, p.data⟩ s
  else .next s

/-- The edges of a list of samples, in order. -/
def clockEdges : List PortSample → State → Host.Outcome State Fault Refusal
  | [], s => .next s
  | p :: rest, s =>
    match clockEdge p s with
    | .next t => clockEdges rest t
    | .fault r => .fault r
    | .refused r => .refused r

/-- One clock cycle: the outputs shown during it are those of the state before its edge, whatever the
inputs are (rules R155 and R157); the outcome is that of its edge. -/
def cycle (p : PortSample) (s : State) :
    Except Fault Outputs × Host.Outcome State Fault Refusal :=
  (readOutputs s, clockEdge p s)

/-- The sample with which the host presents a command. -/
def PortSample.ofCommand (c : Command) : PortSample := ⟨false, true, c.cmd, c.data⟩

/-- A sample at whose edge the block accepts a command: `rst = 0` and `cmd_valid = 1` (rule R154). -/
def PortSample.accepts (p : PortSample) : Bool := !p.rst && p.cmdValid

/-- The edges up to and including the next one that accepts a command. An idle edge is no step of the
model (rule R84), and neither is a reset edge, an action of the host (rule R14): both pass before the
command, with their effects. With no command left there is no step (rule R154; log 2). -/
def advanceFrom : List PortSample → State → Host.Outcome State Fault Refusal
  | [], _ => .refused .noCommandPresented
  | p :: rest, s =>
    if p.accepts then clockEdge p { s with input := rest }
    else
      match clockEdge p s with
      | .next t => advanceFrom rest t
      | .fault r => .fault r
      | .refused r => .refused r

/-- One step: the next accepted command and no other step (rule R154; log 2). -/
def advance (s : State) : Host.Outcome State Fault Refusal := advanceFrom s.input s

/-- The host presents a command before everything else it has to present. -/
def presentFirst (c : Command) (s : State) : State :=
  { s with input := PortSample.ofCommand c :: s.input }

end Sys2Proof.Machine
end

