-- ==== Sys2Proof/Machine/Step.lean ====
section
/-! DEFINITION. The machine's step, and the placing of a table word where the step takes its next
command (log 6). -/

namespace Sys2Proof.Machine

/-- One step of the machine (rule R154). -/
def step (s : State) : Host.Outcome State Fault Refusal := advance s

/-- The table word `w` of `nbits` bits presented on the command port as the very next command. -/
def State.withFetchWord (s : State) (nbits w : Nat) : State :=
  presentFirst (Command.ofTableWord (w % 2 ^ nbits)) s

end Sys2Proof.Machine
end

