-- ==== Sys2Proof/Machine/Assembler.lean ====
section
/-! DEFINITION. The assembler of rule R69, with the pseudo-instruction FEED, from a line of text to
commands, and the written form of a command (rule R13). -/

namespace Sys2Proof.Machine

/-- The expansion of `FEED b0 ... bk-1`: ADD32 commands, then one ADD8, ADD16 or ADD24 with the last
`k mod 4` bytes (rule R69). -/
def feed : List Byte → List Instr
  | [] => []
  | [a] => [.add8 (dataOfBytes 0 0 0 a)]
  | [a, b] => [.add16 (dataOfBytes 0 0 a b)]
  | [a, b, c] => [.add24 (dataOfBytes 0 a b c)]
  | a :: b :: c :: d :: rest => .add32 (dataOfBytes a b c d) :: feed rest

/-- An assembler line, once read (rule R69). -/
inductive AsmLine where
  | nop
  | clear
  | add8 (imm : Nat)
  | add16 (imm : Nat)
  | add24 (imm : Nat)
  | add32 (imm : Nat)
  /-- `.cmd 0xCC, 0xDDDDDDDD`: any raw pair. -/
  | raw (cmd data : Nat)
  | feed (bytes : List Nat)
  deriving DecidableEq, Repr

/-- `imm` as DATA, when it fits a width (rule R69: "refuses an `imm` that does not fit"). -/
def fitting (width imm : Nat) : Option Data :=
  if imm < 2 ^ width then some (BitVec.ofNat 32 imm) else none

/-- Bytes, when every number is one. -/
def fittingBytes : List Nat → Option (List Byte)
  | [] => some []
  | n :: rest =>
    if n < 256 then (fittingBytes rest).map (fun bs => BitVec.ofNat 8 n :: bs) else none

/-- The commands an assembler line encodes as; `none` where the assembler refuses it (rule R69). -/
def assemble : AsmLine → Option (List Command)
  | .nop => some [encode (.nop 0)]
  | .clear => some [encode (.clear 0)]
  | .add8 imm => (fitting 8 imm).map (fun d => [encode (.add8 d)])
  | .add16 imm => (fitting 16 imm).map (fun d => [encode (.add16 d)])
  | .add24 imm => (fitting 24 imm).map (fun d => [encode (.add24 d)])
  | .add32 imm => (fitting 32 imm).map (fun d => [encode (.add32 d)])
  | .raw cmd data =>
    if cmd < 2 ^ 8 ∧ data < 2 ^ 32 then some [⟨BitVec.ofNat 8 cmd, BitVec.ofNat 32 data⟩] else none
  | .feed bytes =>
    if bytes = [] then none else (fittingBytes bytes).map (fun bs => (feed bs).map encode)

/-- The text of a line before `;` (rule R69). -/
def beforeComment : List Char → List Char
  | [] => []
  | c :: rest => if c = ';' then [] else c :: beforeComment rest

/-- Whether a character parts two words: a space, a tab or a comma (log 9). -/
def parts (c : Char) : Bool := c = ' ' || c = '\t' || c = ','

/-- The words of a line; `current` is the word being read. -/
def wordsFrom : List Char → List Char → List (List Char)
  | current, [] => if current = [] then [] else [current]
  | current, c :: rest =>
    if parts c then
      (if current = [] then wordsFrom [] rest else current :: wordsFrom [] rest)
    else wordsFrom (current ++ [c]) rest

/-- The value of a digit, up to base 16, letters in either case (log 9). -/
def digitValue (c : Char) : Option Nat :=
  if '0'.toNat ≤ c.toNat ∧ c.toNat ≤ '9'.toNat then some (c.toNat - '0'.toNat)
  else if 'a'.toNat ≤ c.toNat ∧ c.toNat ≤ 'f'.toNat then some (c.toNat - 'a'.toNat + 10)
  else if 'A'.toNat ≤ c.toNat ∧ c.toNat ≤ 'F'.toNat then some (c.toNat - 'A'.toNat + 10)
  else none

/-- The value of digits in a base, after the value `acc` of the digits before them. -/
def digitsFrom (base : Nat) : Nat → List Char → Option Nat
  | acc, [] => some acc
  | acc, c :: rest =>
    match digitValue c with
    | some v => if v < base then digitsFrom base (acc * base + v) rest else none
    | none => none

/-- An unsigned number, hex with the `0x` prefix or decimal (rule R69). -/
def readNumber : List Char → Option Nat
  | [] => none
  | '0' :: 'x' :: [] => none
  | '0' :: 'x' :: c :: rest => digitsFrom 16 0 (c :: rest)
  | cs => digitsFrom 10 0 cs

/-- Numbers, when every word is one. -/
def readNumbers : List (List Char) → Option (List Nat)
  | [] => some []
  | w :: rest =>
    match readNumber w, readNumbers rest with
    | some n, some ns => some (n :: ns)
    | _, _ => none

/-- FEED's bytes stand in hex without a prefix, as rule R13 writes a byte sequence (log 9). -/
def readBytes : List (List Char) → Option (List Nat)
  | [] => some []
  | w :: rest =>
    match (if w = [] then none else digitsFrom 16 0 w), readBytes rest with
    | some n, some ns => some (n :: ns)
    | _, _ => none

/-- A mnemonic with its operands. An `imm` is hex or decimal (rule R69). The two operands of `.cmd` are
read the same way: rule R69 writes them in hex and does not say whether decimal is refused there.
DESIGN CHOICE (log 9). -/
def readOperation (mnemonic : List Char) (operands : List (List Char)) : Option AsmLine :=
  if mnemonic = ['F', 'E', 'E', 'D'] then (readBytes operands).map .feed
  else
    match readNumbers operands with
    | none => none
    | some [] =>
      if mnemonic = ['N', 'O', 'P'] then some .nop
      else if mnemonic = ['C', 'L', 'E', 'A', 'R'] then some .clear
      else none
    | some [imm] =>
      if mnemonic = ['A', 'D', 'D', '8'] then some (.add8 imm)
      else if mnemonic = ['A', 'D', 'D', '1', '6'] then some (.add16 imm)
      else if mnemonic = ['A', 'D', 'D', '2', '4'] then some (.add24 imm)
      else if mnemonic = ['A', 'D', 'D', '3', '2'] then some (.add32 imm)
      else none
    | some [cmd, data] => if mnemonic = ['.', 'c', 'm', 'd'] then some (.raw cmd data) else none
    | some _ => none

/-- The commands a line of text encodes as: none for a blank or comment line, `none` where the
assembler refuses the line (rule R69; log 9). -/
def assembleText (line : List Char) : Option (List Command) :=
  match wordsFrom [] (beforeComment line) with
  | [] => some []
  | mnemonic :: operands =>
    match readOperation mnemonic operands with
    | some l => assemble l
    | none => none

/-- One hex digit, capital letters, as the spec's examples write them. -/
def hexDigit (n : Nat) : Char :=
  if n < 10 then Char.ofNat ('0'.toNat + n) else Char.ofNat ('A'.toNat + (n - 10))

/-- The last `k` hex digits of a number, most significant first. -/
def hexDigits : Nat → Nat → List Char
  | 0, _ => []
  | k + 1, v => hexDigit (v / 16 ^ k % 16) :: hexDigits k v

/-- A command written `CC:DDDDDDDD` (rule R13). -/
def writeCommand (c : Command) : List Char :=
  hexDigits 2 c.cmd.toNat ++ [':'] ++ hexDigits 8 c.data.toNat

end Sys2Proof.Machine
end

