-- ==== Sys2Proof/Machine/Stream.lean ====
section
/-! DEFINITION. What the block is held to: the reference function of rule R12, and the stream that a
sequence of commands or port samples leaves (rule R41). The stream is not stored in State. -/

namespace Sys2Proof.Machine

/-- The padding of rule R12: a zero byte after an odd number of bytes. -/
def padEven (bytes : List Byte) : List Byte :=
  if bytes.length % 2 = 1 then bytes ++ [0x00] else bytes

/-- The sum over `k` of `{B[2k], B[2k+1]}`, an unbounded natural (rule R12). A last byte without a
partner is no complete word and adds nothing. -/
def wordSum : List Byte → Nat
  | high :: low :: rest => (high.toNat * 256 + low.toNat) + wordSum rest
  | _ => 0

/-- `OCSum(B) = fold(S)` (rule R12). -/
def ocSum (bytes : List Byte) : Nat := fold (wordSum (padEven bytes))

/-- `Checksum(B) = ~16 fold(S)`, with `~16 v = 0xFFFF - v` (rules R8 and R12). -/
def checksum (bytes : List Byte) : Nat := 0xFFFF - ocSum bytes

/-- The bytes a command appends when the block performs it (rules R41, R43 and R62): none for NOP,
CLEAR and a range error. -/
def appendedBytes : Instr → List Byte
  | .nop _ => []
  | .clear _ => []
  | .add8 d => if inRange 1 d then dataBytes 1 d else []
  | .add16 d => if inRange 2 d then dataBytes 2 d else []
  | .add24 d => if inRange 3 d then dataBytes 3 d else []
  | .add32 d => dataBytes 4 d

/-- The stream after a command, from the stream before it (rule R41). -/
def streamAfter (stream : List Byte) (c : Command) : List Byte :=
  match decode c with
  | .ok (.clear _) => []
  | .ok i => stream ++ appendedBytes i
  | .error _ => stream

/-- The stream after a list of commands (rule R41). -/
def streamAfterAll (stream : List Byte) (cs : List Command) : List Byte :=
  cs.foldl streamAfter stream

/-- The stream after one clock edge: reset empties it, an idle edge keeps it (rules R41 and R84). -/
def streamAfterEdge (stream : List Byte) (p : PortSample) : List Byte :=
  if p.rst then []
  else if p.cmdValid then streamAfter stream ⟨p.cmd, p.data⟩
  else stream

/-- A command the block rejects: a reserved CMD or DATA out of range (rules R131 and R132). -/
def rejected (c : Command) : Bool :=
  match decode c with
  | .ok (.add8 d) => !inRange 1 d
  | .ok (.add16 d) => !inRange 2 d
  | .ok (.add24 d) => !inRange 3 d
  | .ok _ => false
  | .error _ => true

/-- A command that empties the stream (rule R81). -/
def isClear (c : Command) : Bool := c.cmd == 0x01

end Sys2Proof.Machine
end

