-- ==== Sys2Proof/Machine/Feeding.lean ====
section
/-! DEFINITION. The host feeding contract (rules R52 to R58) and verification (rule R119): what the
host feeds for each ICMP kind, and the host operations over the block. None of it is in the block
(log 11). -/

namespace Sys2Proof.Machine

/-- The widths of an UnsignedInt field, "one of 8/16/24/32" (rule R53). -/
inductive FieldWidth where
  | w8 | w16 | w24 | w32
  deriving DecidableEq, Repr

/-- The three field kinds of the source (rule R53). -/
inductive Item where
  | unsignedInt (width : FieldWidth) (value : Data)
  | octetArray (bytes : List Byte)
  | restPayload (bytes : List Byte)
  deriving DecidableEq, Repr

/-- The one `ADDw` with DATA = v that feeds an UnsignedInt (rule R53). -/
def addOfWidth : FieldWidth → Data → Instr
  | .w8, v => .add8 v
  | .w16, v => .add16 v
  | .w24, v => .add24 v
  | .w32, v => .add32 v

/-- How each field kind is fed (rule R53). Byte sequences are split as FEED splits them; any split
does (rule R97; log 11). -/
def Item.commands : Item → List Command
  | .unsignedInt w v => [encode (addOfWidth w v)]
  | .octetArray bytes => (feed bytes).map encode
  | .restPayload bytes => (feed bytes).map encode

/-- The commands that feed items in order. -/
def itemsCommands : List Item → List Command
  | [] => []
  | i :: rest => i.commands ++ itemsCommands rest

/-- The variant-specific fields of the 12 ICMP kinds (rule R55; 90_conflicts.md C1). -/
inductive IcmpBody where
  | raw
  | echoRequest (id seq : Word)
  | echoReply (id seq : Word)
  | destinationUnreachable (unused : Data)
  | timeExceeded (unused : Data)
  | parameterProblem (pointer : Byte) (unused : BitVec 24)
  | sourceQuench (unused : Data)
  | redirect (g0 g1 g2 g3 : Byte)
  | timestamp (id seq : Word) (originate receive transmit : Data)
  | timestampReply (id seq : Word) (originate receive transmit : Data)
  | informationRequest (id seq : Word)
  | informationReply (id seq : Word)
  deriving DecidableEq, Repr

/-- An ICMP message as the host holds it. `type` and `code` are inputs, not constants (U6, U11). -/
structure IcmpMessage where
  type     : Byte
  code     : Byte
  checksum : Word
  body     : IcmpBody
  payload  : List Byte
  deriving DecidableEq, Repr

/-- An item of 16 bits. -/
def item16 (v : Word) : Item := .unsignedInt .w16 (v.zeroExtend 32)

/-- The variant's items of rule R55's table, between the `0` item and the payload. A Redirect's
`gatewayIpAsInt` and a ParameterProblem's `pointer<<24 | unused` are 32-bit integers (D16). -/
def IcmpBody.items : IcmpBody → List Item
  | .raw => []
  | .echoRequest id seq => [item16 id, item16 seq]
  | .echoReply id seq => [item16 id, item16 seq]
  | .destinationUnreachable unused => [.unsignedInt .w32 unused]
  | .timeExceeded unused => [.unsignedInt .w32 unused]
  | .parameterProblem pointer unused =>
      [.unsignedInt .w32 ((pointer.zeroExtend 32 <<< 24) ||| unused.zeroExtend 32)]
  | .sourceQuench unused => [.unsignedInt .w32 unused]
  | .redirect g0 g1 g2 g3 => [.unsignedInt .w32 (dataOfBytes g0 g1 g2 g3)]
  | .timestamp id seq originate receive transmit =>
      [item16 id, item16 seq, .unsignedInt .w32 originate, .unsignedInt .w32 receive,
        .unsignedInt .w32 transmit]
  | .timestampReply id seq originate receive transmit =>
      [item16 id, item16 seq, .unsignedInt .w32 originate, .unsignedInt .w32 receive,
        .unsignedInt .w32 transmit]
  | .informationRequest id seq => [item16 id, item16 seq]
  | .informationReply id seq => [item16 id, item16 seq]

/-- The items fed with the word `stored` at the checksum position (rules R55 and R119). -/
def IcmpMessage.itemsWith (m : IcmpMessage) (stored : Word) : List Item :=
  [.unsignedInt .w8 (m.type.zeroExtend 32), .unsignedInt .w8 (m.code.zeroExtend 32),
    item16 stored] ++ m.body.items ++ [.restPayload m.payload]

/-- The checksum pseudo-buffer: 0 at the checksum position (rule R55, D15). -/
def IcmpMessage.pseudoItems (m : IcmpMessage) : List Item := m.itemsWith 0x0000

/-- The wire bytes of the variant-specific fields, each field big-endian (rules R43 and R54). -/
def IcmpBody.wireBytes : IcmpBody → List Byte
  | .raw => []
  | .echoRequest id seq => wordBytes id ++ wordBytes seq
  | .echoReply id seq => wordBytes id ++ wordBytes seq
  | .destinationUnreachable unused => dataBytes 4 unused
  | .timeExceeded unused => dataBytes 4 unused
  | .parameterProblem pointer unused =>
      [pointer, unused.extractLsb' 16 8, unused.extractLsb' 8 8, unused.extractLsb' 0 8]
  | .sourceQuench unused => dataBytes 4 unused
  | .redirect g0 g1 g2 g3 => [g0, g1, g2, g3]
  | .timestamp id seq originate receive transmit =>
      wordBytes id ++ wordBytes seq ++ dataBytes 4 originate ++ dataBytes 4 receive
        ++ dataBytes 4 transmit
  | .timestampReply id seq originate receive transmit =>
      wordBytes id ++ wordBytes seq ++ dataBytes 4 originate ++ dataBytes 4 receive
        ++ dataBytes 4 transmit
  | .informationRequest id seq => wordBytes id ++ wordBytes seq
  | .informationReply id seq => wordBytes id ++ wordBytes seq
where
  /-- A 16-bit field's two bytes, the most significant first. -/
  wordBytes (w : Word) : List Byte := [w.extractLsb' 8 8, w.extractLsb' 0 8]

/-- The packed message: the header of rule R54, the variant-specific fields, the payload. -/
def IcmpMessage.wireBytes (m : IcmpMessage) : List Byte :=
  [m.type, m.code, m.checksum.extractLsb' 8 8, m.checksum.extractLsb' 0 8]
    ++ m.body.wireBytes ++ m.payload

/-- The command CLEAR as a host issues it (rule R52). -/
def clearCommand : Command := encode (.clear 0)

/-- The host's run over a buffer's commands: CLEAR, then the commands (rule R52). -/
def hostRun (cs : List Command) (s : State) : Host.Outcome State Fault Refusal :=
  acceptAll (clearCommand :: cs) s

/-- What the host takes from `csum_out`: nothing where an error flag is set (rules R52 and R136). -/
def hostChecksum (cs : List Command) (s : State) : Option Word :=
  match hostRun cs s with
  | .next t => if t.errIllegal || t.errRange then none else some t.csum
  | .fault _ => none
  | .refused _ => none

/-- `checksum!()`: the checksum of the pseudo-buffer, put at the message's checksum field
(rule R56). -/
def IcmpMessage.computeChecksum (m : IcmpMessage) (s : State) : Option IcmpMessage :=
  (hostChecksum (itemsCommands m.pseudoItems) s).map (fun c => { m with checksum := c })

/-- `fix!()`: "currently delegates to `checksum!()` only" (rule R56, U7). -/
def IcmpMessage.fix (m : IcmpMessage) (s : State) : Option IcmpMessage := m.computeChecksum s

/-- `checksum?()`: recompute and compare with the stored field (rule R57); method (a) of rule R119. -/
def IcmpMessage.verify (m : IcmpMessage) (s : State) : Option Bool :=
  (hostChecksum (itemsCommands m.pseudoItems) s).map (fun c => c == m.checksum)

/-- Method (b) of rule R119: feed the message with its stored checksum in place and read ZERO. -/
def IcmpMessage.verifyByZero (m : IcmpMessage) (s : State) : Option Bool :=
  match hostRun (itemsCommands (m.itemsWith m.checksum)) s with
  | .next t => if t.errIllegal || t.errRange then none else some t.zero
  | .fault _ => none
  | .refused _ => none

end Sys2Proof.Machine
end

