-- ==== Sys2Proof/Safety.lean ====
section
/-! DEFINITION. What a safe run is on this block: the invariant of rule R24, and a state whose
checksum the host may use (rules R52, R136 and R153). -/

namespace Sys2Proof.Machine

/-- The invariant of rule R24, `ODD = 0` implies `HOLD = 0x00`, which reset and CLEAR establish: it
is claimed of a state that one of them has defined (rule R33). -/
abbrev State.Inv (s : State) : Prop := s.defined = true → s.odd = false → s.hold = 0x00

/-- No command was rejected since the last CLEAR or reset (rule R135). -/
abbrev State.clean (s : State) : Prop := s.errIllegal = false ∧ s.errRange = false

/-- The host may use `csum_out`: the state is defined and no error flag is set (rules R52 and R153). -/
abbrev State.checksumUsable (s : State) : Prop := s.defined = true ∧ s.clean

end Sys2Proof.Machine
end

