-- ==== Sys2Proof/Certificates/Slice0/Obligations.lean ====
section
/-! DEFINITION. The statements about CKSUM16, from the numbered rules of the spec. -/

open Sys2Proof Sys2Proof.Machine

/-! ### Encoding -/

/-- Rule R62: each CMD value of the opcode map decodes to its command, with every DATA. -/
def Obligations.DecodeReadsTheOpcodeMap : Prop :=
  (∀ d : Data,
    decode ⟨0x00, d⟩ = .ok (.nop d) ∧ decode ⟨0x01, d⟩ = .ok (.clear d) ∧
    decode ⟨0x10, d⟩ = .ok (.add8 d) ∧ decode ⟨0x11, d⟩ = .ok (.add16 d) ∧
    decode ⟨0x12, d⟩ = .ok (.add24 d) ∧ decode ⟨0x13, d⟩ = .ok (.add32 d)) ∧
  decode ⟨0x0F, 0xFFFFFFFF⟩ = .error .controlSub ∧ decode ⟨0x14, 0x5⟩ = .error .addSubres ∧
  decode ⟨0xFF, 0x0⟩ = .error .operationClass

/-- Rule R67: the decode function, clause by clause, on every CMD value. -/
def Obligations.DecodeIsTotalOnCmd : Prop :=
  ∀ c : Command,
    (c.cmd = 0x00 → decode c = .ok (.nop c.data)) ∧
    (c.cmd = 0x01 → decode c = .ok (.clear c.data)) ∧
    (c.cmd.extractLsb' 4 4 = 0x1 → c.cmd.extractLsb' 2 2 = 0 →
      (c.cmd.extractLsb' 0 2 = 0 → decode c = .ok (.add8 c.data)) ∧
      (c.cmd.extractLsb' 0 2 = 1 → decode c = .ok (.add16 c.data)) ∧
      (c.cmd.extractLsb' 0 2 = 2 → decode c = .ok (.add24 c.data)) ∧
      (c.cmd.extractLsb' 0 2 = 3 → decode c = .ok (.add32 c.data))) ∧
    (c.cmd ≠ 0x00 → c.cmd ≠ 0x01 →
      ¬(c.cmd.extractLsb' 4 4 = 0x1 ∧ c.cmd.extractLsb' 2 2 = 0) → ∃ r, decode c = .error r)

/-- Rule R66: the reserved CMD values are the three classes given, 250 values in all, and accepting
one in a defined state sets ERR_ILLEGAL and changes nothing else. -/
def Obligations.ReservedCommandsAreTheThreeClasses : Prop :=
  (∀ c : Command,
    (decode c = .error .controlSub ↔ 0x02 ≤ c.cmd.toNat ∧ c.cmd.toNat ≤ 0x0F) ∧
    (decode c = .error .addSubres ↔ 0x14 ≤ c.cmd.toNat ∧ c.cmd.toNat ≤ 0x1F) ∧
    (decode c = .error .operationClass ↔ 0x20 ≤ c.cmd.toNat)) ∧
  (∀ d : Data, ((List.range 256).filter
    (fun v => (decode ⟨BitVec.ofNat 8 v, d⟩).toOption.isNone)).length = 250) ∧
  (∀ (c : Command) (s : State), (decode c).toOption = none → s.defined = true →
    accept c s = .next { s with errIllegal := true })

/-- Decode and encode agree, on transactions and on 40-bit table words: the decoder answers an
instruction for exactly the word that encodes it. The numbering of the table word is log 5. -/
def Obligations.DecodeAgreesWithEncode : Prop :=
  (∀ (c : Command) (i : Instr), decode c = .ok i ↔ c = encode i) ∧
  (∀ (w : Nat) (i : Instr), w < 2 ^ 40 →
    (decodeTableWord 40 w = some i ↔ w = (encode i).toTableWord)) ∧
  (∀ i : Instr, (encode i).toTableWord < 2 ^ 40)

/-! ### The step and the clock edge -/

/-- Rule R154: a step performs the next command the host presents: it is `exec` of the decoded command.
Edges before it that accept no command pass unnoticed when idle (rule R84); if a reset is among them,
the command meets the reset state (rule R150). That they pass inside the step is log 2. -/
def Obligations.StepRunsTheDecodedCommand : Prop :=
  ∀ (before rest : List PortSample) (p : PortSample) (i : Instr) (s : State),
    (∀ q ∈ before, q.rst = true ∨ q.cmdValid = false) →
    p.rst = false → p.cmdValid = true → s.input = before ++ p :: rest →
    decode ⟨p.cmd, p.data⟩ = .ok i →
    ((∀ q ∈ before, q.rst = false) → step s = exec i { s with input := rest }) ∧
    ((∃ q ∈ before, q.rst = true) → step s = exec i { State.reset with input := rest })

/-- The model's placing of a table word (log 6): the very next step runs the decoded command. -/
def Obligations.StepRunsThePlacedTableWord : Prop :=
  ∀ (nbits w : Nat) (i : Instr) (s : State), decodeTableWord nbits w = some i →
    step (s.withFetchWord nbits w) = exec i s

/-- A step that takes a reserved CMD sets ERR_ILLEGAL (rule R131), in the reset state after a reset edge;
before the first reset it faults (the model's choice after U1, log 3). -/
def Obligations.StepOfReservedCommandReportsIllegal : Prop :=
  ∀ (before rest : List PortSample) (p : PortSample) (r : Reserved) (s : State),
    (∀ q ∈ before, q.rst = true ∨ q.cmdValid = false) →
    p.rst = false → p.cmdValid = true → s.input = before ++ p :: rest →
    decode ⟨p.cmd, p.data⟩ = .error r →
    ((∀ q ∈ before, q.rst = false) →
      (s.defined = true → step s = .next { s with errIllegal := true, input := rest }) ∧
      (s.defined = false → step s = .fault .beforeFirstReset)) ∧
    ((∃ q ∈ before, q.rst = true) →
      step s = .next { State.reset with errIllegal := true, input := rest })

/-- Rule R150: an edge with `rst = 1` gives every element its reset value, whatever command stands at
it and whatever the state before; more such edges keep the reset state. -/
def Obligations.ResetEdgeGivesResetState : Prop :=
  ∀ (p q : PortSample) (s : State), p.rst = true → q.rst = true →
    ∃ t, clockEdge p s = .next t ∧
      t.acc = 0x0000 ∧ t.hold = 0x00 ∧ t.odd = false ∧ t.errIllegal = false ∧ t.errRange = false ∧
      t = { State.reset with input := s.input } ∧ clockEdge q t = .next t

/-- Rule R154, "no other steps": idle and reset edges are no steps, so a state whose host presents no
further command has no step (the model's name for that is log 2). Their effect on the state is that of
the clock edge: idle edges leave it (rule R84), and a reset among them gives the reset state. -/
def Obligations.NoStepWithoutACommand : Prop :=
  ∀ s : State, (∀ q ∈ s.input, q.rst = true ∨ q.cmdValid = false) →
    step s = .refused .noCommandPresented ∧
    ((∀ q ∈ s.input, q.rst = false) → clockEdges s.input s = .next s) ∧
    ((∃ q ∈ s.input, q.rst = true) →
      clockEdges s.input s = .next { State.reset with input := s.input })

/-- Rule R68: with `cmd_valid = 0` CMD and DATA are ignored and the state is unchanged, as for NOP. -/
def Obligations.IdleEdgeChangesNothing : Prop :=
  ∀ (p : PortSample) (s : State), p.rst = false → p.cmdValid = false →
    clockEdge p s = .next s ∧
    (s.defined = true → ∀ d : Data, exec (.nop d) s = clockEdge p s)

/-- From a defined state every edge, every command and every step that has a command to take answers a
next, defined state: the block never stops accepting commands (rules R130 and R154). -/
def Obligations.DefinedBlockNeverStops : Prop :=
  (∀ (ps : List PortSample) (s : State), s.defined = true →
    ∃ t, clockEdges ps s = .next t ∧ t.defined = true) ∧
  (∀ s : State, s.defined = true → (∃ p ∈ s.input, p.rst = false ∧ p.cmdValid = true) →
    ∃ t, step s = .next t ∧ t.defined = true) ∧
  (∀ (i : Instr) (s : State), s.defined = true → ∃ t, exec i s = .next t ∧ t.input = s.input)

/-! ### The control commands -/

/-- Rule R65: DATA of NOP and CLEAR is ignored. -/
def Obligations.DataOfNopAndClearIsIgnored : Prop :=
  ∀ (d e : Data) (s : State), s.defined = true →
    (∃ t, exec (.nop d) s = .next t ∧ exec (.nop e) s = .next t) ∧
    (∃ t, exec (.clear d) s = .next t ∧ exec (.clear e) s = .next t)

/-- Rule R80: NOP writes no state element, with any DATA, a pending byte or error flags; its example. -/
def Obligations.NopChangesNothing : Prop :=
  (∀ (d : Data) (s : State), decode ⟨0x00, d⟩ = .ok (.nop d) ∧
    (s.defined = true → exec (.nop d) s = .next s)) ∧
  ∃ t, exec (.nop 0xDEADBEEF) { State.reset with acc := 0x0402, hold := 0x04, odd := true } = .next t ∧
    t.outputs = State.outputs { State.reset with acc := 0x0402, hold := 0x04, odd := true }

/-- Rule R81: CLEAR empties the stream and clears the error flags, giving the reset state whatever the
state before; twice is the same as once; its example. -/
def Obligations.ClearGivesResetState : Prop :=
  (∀ (d e : Data) (s : State), decode ⟨0x01, d⟩ = .ok (.clear d) ∧
    ∃ t, exec (.clear d) s = .next t ∧
      t.acc = 0x0000 ∧ t.hold = 0x00 ∧ t.odd = false ∧ t.errIllegal = false ∧ t.errRange = false ∧
      t = { State.reset with input := s.input } ∧
      exec (.clear e) t = .next t ∧ t.sum = 0x0000 ∧ t.csum = 0xFFFF) ∧
  (∀ (d : Data) (stream : List Byte), streamAfter stream (encode (.clear d)) = []) ∧
  checksum [] = 0xFFFF ∧
  ∃ t, exec (.clear 0) { State.reset with
      acc := 0x0102, hold := 0x03, odd := true, errIllegal := true, errRange := true } = .next t ∧
    t = State.reset ∧ t.csum = 0xFFFF ∧ t.status = 0x0000

/-! ### The accumulate commands -/

/-- Rule R90: the byte step, on every state and byte. -/
def Obligations.ByteStepHoldsOrCompletesAWord : Prop :=
  ∀ (s : State) (b : Byte),
    (s.odd = false → byteStep s b = { s with hold := b, odd := true }) ∧
    (s.odd = true → byteStep s b = { s with
      acc := BitVec.ofNat 16 (fold (s.acc.toNat + (s.hold.toNat * 256 + b.toNat))),
      hold := 0x00, odd := false })

/-- Rule R92: an ADD of `nbytes` bytes either only sets ERR_RANGE or is the byte steps of its bytes,
most significant first; it never writes ERR_ILLEGAL, and an accepted ADD keeps ERR_RANGE. -/
def Obligations.AddIsItsByteSteps : Prop :=
  ∀ (c : Command) (s : State), c.cmd.extractLsb' 4 4 = 0x1 → c.cmd.extractLsb' 2 2 = 0 →
    s.defined = true →
    ∃ t, accept c s = .next t ∧ t.errIllegal = s.errIllegal ∧
      (2 ^ (8 * ((c.cmd.extractLsb' 0 2).toNat + 1)) ≤ c.data.toNat →
        t = { s with errRange := true }) ∧
      (c.data.toNat < 2 ^ (8 * ((c.cmd.extractLsb' 0 2).toNat + 1)) →
        t = ((List.range ((c.cmd.extractLsb' 0 2).toNat + 1)).reverse.map
          (fun i => c.data.extractLsb' (8 * i) 8)).foldl byteStep s ∧
        t.errRange = s.errRange)

/-- Rule R93: ADD8 in every defined state and with every DATA, its corner cases and its example. -/
def Obligations.Add8AppendsOneByte : Prop :=
  (∀ (d : Data) (s : State), s.defined = true →
    decode ⟨0x10, d⟩ = .ok (.add8 d) ∧
    (2 ^ 8 ≤ d.toNat ↔ d.extractLsb' 8 24 ≠ 0) ∧
    (d.toNat < 2 ^ 8 → s.odd = false →
      exec (.add8 d) s = .next { s with hold := d.extractLsb' 0 8, odd := true } ∧
      State.sum { s with hold := d.extractLsb' 0 8, odd := true } =
        ocAdd s.acc (d.extractLsb' 0 8 ++ (0x00 : Byte))) ∧
    (d.toNat < 2 ^ 8 → s.odd = true →
      exec (.add8 d) s = .next { s with
        acc := ocAdd s.acc (s.hold ++ d.extractLsb' 0 8), hold := 0x00, odd := false }) ∧
    (2 ^ 8 ≤ d.toNat → exec (.add8 d) s = .next { s with errRange := true })) ∧
  (∀ s : State, s.defined = true → s.Inv → s.odd = false →
    ∃ t, exec (.add8 0x00) s = .next t ∧ t.odd = true ∧
      t.status.getLsbD 0 ≠ s.status.getLsbD 0 ∧ t.sum = s.sum) ∧
  ∃ t, exec (.add8 0xFF) State.reset = .next t ∧
    t.hold = 0xFF ∧ t.odd = true ∧ t.acc = 0x0000 ∧ t.sum = 0xFF00 ∧ t.csum = 0x00FF

/-- Rule R94: ADD16 in every defined state and with every DATA, its corner cases and its example. -/
def Obligations.Add16AppendsTwoBytes : Prop :=
  (∀ (d : Data) (s : State), s.defined = true →
    decode ⟨0x11, d⟩ = .ok (.add16 d) ∧
    (2 ^ 16 ≤ d.toNat ↔ d.extractLsb' 16 16 ≠ 0) ∧
    (d.toNat < 2 ^ 16 → s.odd = false →
      exec (.add16 d) s = .next { s with
        acc := ocAdd s.acc (d.extractLsb' 0 16), hold := 0x00, odd := false }) ∧
    (d.toNat < 2 ^ 16 → s.odd = true →
      exec (.add16 d) s = .next { s with
        acc := ocAdd s.acc (s.hold ++ d.extractLsb' 8 8), hold := d.extractLsb' 0 8, odd := true }) ∧
    (2 ^ 16 ≤ d.toNat → exec (.add16 d) s = .next { s with errRange := true })) ∧
  (∀ s : State, s.defined = true → s.odd = false →
    (s.acc = 0x0000 → ∃ t, exec (.add16 0x0000) s = .next t ∧ t.acc = 0x0000) ∧
    (s.acc = 0x0000 → ∃ t, exec (.add16 0xFFFF) s = .next t ∧ t.acc = 0xFFFF) ∧
    (s.acc ≠ 0x0000 → ∃ t, exec (.add16 0xFFFF) s = .next t ∧ t.acc = s.acc)) ∧
  (∃ t, acceptAll [⟨0x11, 0x8000⟩, ⟨0x11, 0x8000⟩] State.reset = .next t ∧ t.acc = 0x0001) ∧
  (∃ t, acceptAll [⟨0x11, 0xFFFF⟩, ⟨0x11, 0x0001⟩] State.reset = .next t ∧ t.acc = 0x0001) ∧
  ∃ t, exec (.add16 0xCDEF) { State.reset with hold := 0xAB, odd := true } = .next t ∧
    t.acc = 0xABCD ∧ t.hold = 0xEF ∧ t.odd = true ∧ t.sum = 0x9ACE ∧ t.csum = 0x6531

/-- Rule R95: ADD24 in every defined state and with every DATA, its corner cases and its example. -/
def Obligations.Add24AppendsThreeBytes : Prop :=
  (∀ (d : Data) (s : State), s.defined = true →
    decode ⟨0x12, d⟩ = .ok (.add24 d) ∧
    (2 ^ 24 ≤ d.toNat ↔ d.extractLsb' 24 8 ≠ 0) ∧
    (d.toNat < 2 ^ 24 → s.odd = false →
      exec (.add24 d) s = .next { s with
        acc := ocAdd s.acc (d.extractLsb' 16 8 ++ d.extractLsb' 8 8),
        hold := d.extractLsb' 0 8, odd := true }) ∧
    (d.toNat < 2 ^ 24 → s.odd = true →
      exec (.add24 d) s = .next { s with
        acc := ocAdd (ocAdd s.acc (s.hold ++ d.extractLsb' 16 8))
          (d.extractLsb' 8 8 ++ d.extractLsb' 0 8),
        hold := 0x00, odd := false }) ∧
    (2 ^ 24 ≤ d.toNat → exec (.add24 d) s = .next { s with errRange := true })) ∧
  ∃ t, exec (.add24 0x00ABCDEF) State.reset = .next t ∧
    t.acc = 0xABCD ∧ t.hold = 0xEF ∧ t.odd = true ∧
    acceptAll [⟨0x10, 0x000000AB⟩, ⟨0x11, 0x0000CDEF⟩] State.reset = .next t

/-- Rule R96: ADD32 in every defined state and with every DATA, its corner cases and its example. -/
def Obligations.Add32AppendsFourBytes : Prop :=
  (∀ (d : Data) (s : State), s.defined = true →
    decode ⟨0x13, d⟩ = .ok (.add32 d) ∧
    (s.odd = false →
      exec (.add32 d) s = .next { s with
        acc := ocAdd (ocAdd s.acc (d.extractLsb' 16 16)) (d.extractLsb' 0 16),
        hold := 0x00, odd := false }) ∧
    (s.odd = true →
      exec (.add32 d) s = .next { s with
        acc := ocAdd (ocAdd s.acc (s.hold ++ d.extractLsb' 24 8))
          (d.extractLsb' 16 8 ++ d.extractLsb' 8 8),
        hold := d.extractLsb' 0 8, odd := true })) ∧
  (∃ t, exec (.add32 0xFFFFFFFF) State.reset = .next t ∧ t.acc = 0xFFFF) ∧
  ∃ t, exec (.add32 0x02030405) { State.reset with hold := 0x01, odd := true } = .next t ∧
    t.acc = 0x0406 ∧ t.hold = 0x05 ∧ t.odd = true ∧ t.sum = 0x0906 ∧ t.csum = 0xF6F9

/-! ### One's-complement arithmetic -/

/-- Rule R9: `fold` is the loop that folds the bits above position 15 back until none remain. -/
def Obligations.FoldIsTheFoldingLoop : Prop :=
  ∀ x : Nat,
    (x ≤ 0xFFFF → fold x = x) ∧
    (0xFFFF < x → fold x = fold ((x &&& 0xFFFF) + (x >>> 16))) ∧
    fold x ≤ 0xFFFF

/-- Rules R10 and R91: `a (+) b` is `fold(a + b)`, and is one 17-bit addition with one end-around
carry, which never exceeds 0xFFFF. -/
def Obligations.AdditionHasOneEndAroundCarry : Prop :=
  ∀ a w : Word,
    a.toNat + w.toNat ≤ 0x1FFFE ∧
    (ocAdd a w).toNat = fold (a.toNat + w.toNat) ∧
    (ocAdd a w).toNat = (a.toNat + w.toNat) % 65536 + (a.toNat + w.toNat) / 65536

/-- Rule R100: `(+)` is commutative and associative with identity 0; adding 0xFFFF keeps a non-zero
value and takes 0 to 0xFFFF. -/
def Obligations.OnesComplementAlgebra : Prop :=
  ∀ a b c : Word,
    ocAdd a b = ocAdd b a ∧
    ocAdd (ocAdd a b) c = ocAdd a (ocAdd b c) ∧
    (ocAdd a (ocAdd b c)).toNat = fold (a.toNat + b.toNat + c.toNat) ∧
    ocAdd a 0x0000 = a ∧
    (a ≠ 0x0000 → ocAdd a 0xFFFF = a) ∧
    ocAdd 0x0000 0xFFFF = 0xFFFF

/-- Rule R98: `fold` keeps the value modulo 0xFFFF and is 0 only at 0, so folding after every word is
folding once at the end: after any samples from reset, ACC is the fold of the wide sum of the
stream's complete words. -/
def Obligations.PerWordFoldingEqualsFoldingAtTheEnd : Prop :=
  (∀ x : Nat, fold x % 0xFFFF = x % 0xFFFF ∧ fold x ≤ 0xFFFF ∧ (fold x = 0 ↔ x = 0)) ∧
  (∀ x w : Nat, fold (fold x + w) = fold (x + w)) ∧
  (∀ ps : List PortSample, ∃ t, clockEdges ps State.reset = .next t ∧
    t.acc.toNat = fold (wordSum (ps.foldl streamAfterEdge [])))

/-! ### Errors -/

/-- Rule R131: accepting a reserved CMD sets ERR_ILLEGAL and changes nothing else, whatever DATA holds,
and nothing else sets that flag. -/
def Obligations.OnlyReservedCommandsSetErrIllegal : Prop :=
  (∀ (c : Command) (r : Reserved) (s : State), decode c = .error r → s.defined = true →
    accept c s = .next { s with errIllegal := true }) ∧
  (∀ (c : Command) (s t : State), accept c s = .next t → s.errIllegal = false →
    t.errIllegal = true → ∃ r, decode c = .error r) ∧
  ((List.range 256).filter
    (fun v => (decode ⟨BitVec.ofNat 8 v, 0⟩).toOption.isNone)).length = 250

/-- Rule R132: a too wide DATA of ADD8, ADD16 or ADD24 sets ERR_RANGE, changes nothing else and
appends nothing, and nothing else sets that flag. -/
def Obligations.OnlyWideDataSetsErrRange : Prop :=
  (∀ (d : Data) (s : State) (stream : List Byte), s.defined = true →
    (2 ^ 8 ≤ d.toNat → exec (.add8 d) s = .next { s with errRange := true } ∧
      streamAfter stream (encode (.add8 d)) = stream) ∧
    (2 ^ 16 ≤ d.toNat → exec (.add16 d) s = .next { s with errRange := true } ∧
      streamAfter stream (encode (.add16 d)) = stream) ∧
    (2 ^ 24 ≤ d.toNat → exec (.add24 d) s = .next { s with errRange := true } ∧
      streamAfter stream (encode (.add24 d)) = stream)) ∧
  (∀ (c : Command) (s t : State), accept c s = .next t → s.errRange = false → t.errRange = true →
    ∃ d : Data, (decode c = .ok (.add8 d) ∧ 2 ^ 8 ≤ d.toNat) ∨
      (decode c = .ok (.add16 d) ∧ 2 ^ 16 ≤ d.toNat) ∨
      (decode c = .ok (.add24 d) ∧ 2 ^ 24 ≤ d.toNat))

/-- Rule R134: a command raises at most one error; a reserved CMD is never range-checked; only an ADD
is; NOP and CLEAR raise nothing. -/
def Obligations.AtMostOneErrorPerCommand : Prop :=
  ∀ (c : Command) (s t : State), accept c s = .next t →
    ((s.errIllegal = false ∧ t.errIllegal = true) → t.errRange = s.errRange) ∧
    ((s.errRange = false ∧ t.errRange = true) → t.errIllegal = s.errIllegal) ∧
    (∀ r, decode c = .error r → t.errIllegal = true ∧ t.errRange = s.errRange) ∧
    (∀ d, decode c = .ok (.nop d) → t.errIllegal = s.errIllegal ∧ t.errRange = s.errRange) ∧
    (∀ d, decode c = .ok (.clear d) → t.errIllegal = false ∧ t.errRange = false)

/-- Rule R135: a set error flag stays set through every edge that neither resets nor accepts a CLEAR,
and those two clear both flags. -/
def Obligations.ErrorFlagsAreSticky : Prop :=
  (∀ (p : PortSample) (s t : State), clockEdge p s = .next t → p.rst = false →
    ¬(p.cmdValid = true ∧ p.cmd = 0x01) →
    (s.errIllegal = true → t.errIllegal = true) ∧ (s.errRange = true → t.errRange = true)) ∧
  (∀ (p : PortSample) (s : State), (p.rst = true ∨ (p.cmdValid = true ∧ p.cmd = 0x01)) →
    ∃ t, clockEdge p s = .next t ∧ t.errIllegal = false ∧ t.errRange = false)

/-- Rule R136: the error flags never change what a command does to the stream's state or to the
outputs SUM and CSUM; commands after an error execute normally. -/
def Obligations.ErrorsDoNotChangeLaterCommands : Prop :=
  ∀ (c : Command) (s : State) (illegal range : Bool), s.defined = true →
    ∃ t u, accept c s = .next t ∧
      accept c { s with errIllegal := illegal, errRange := range } = .next u ∧
      u.acc = t.acc ∧ u.hold = t.hold ∧ u.odd = t.odd ∧ u.sum = t.sum ∧ u.csum = t.csum

/-! ### Outputs -/

/-- Rule R110: SUM adds the pending byte as the high byte of a word padded with zero; where no byte is
pending, SUM is ACC. -/
def Obligations.SumPadsThePendingByte : Prop :=
  ∀ s : State,
    s.sum.toNat = fold (s.acc.toNat + (s.hold.toNat <<< 8)) ∧
    (s.defined = true → s.Inv → s.odd = false → s.sum = s.acc)

/-- Rule R111: CSUM is 0xFFFF - SUM. -/
def Obligations.CsumIsTheComplementOfSum : Prop :=
  ∀ s : State, s.csum.toNat = 0xFFFF - s.sum.toNat

/-- Rule R112: ZERO is 1 exactly when CSUM is 0x0000, exactly when SUM is 0xFFFF; it reads 0 after
reset. -/
def Obligations.ZeroTellsSumIsAllOnes : Prop :=
  (∀ s : State, (s.zero = true ↔ s.csum = 0x0000) ∧ (s.csum = 0x0000 ↔ s.sum = 0xFFFF) ∧
    s.status.getLsbD 1 = s.zero) ∧
  State.reset.zero = false ∧ State.reset.sum = 0x0000

/-- Rule R30: every field of the STATUS word, and its reset value. -/
def Obligations.StatusFieldsStandInTheirPlaces : Prop :=
  (∀ s : State,
    s.status.getLsbD 0 = s.odd ∧ s.status.getLsbD 1 = (s.csum == 0x0000) ∧
    s.status.getLsbD 2 = s.errIllegal ∧ s.status.getLsbD 3 = s.errRange ∧
    s.status.extractLsb' 4 4 = 0 ∧ s.status.extractLsb' 8 8 = s.hold) ∧
  State.reset.status = 0x0000

/-- Rule R113: `acc_out` is ACC; SUM, CSUM and `acc_out` do not depend on the error flags; STATUS
does only in bits 2 and 3; `acc_out` equals SUM when no byte is pending. -/
def Obligations.OutputsIgnoreTheErrorFlags : Prop :=
  ∀ (s : State) (illegal range : Bool),
    s.outputs.acc = s.acc ∧
    (State.outputs { s with errIllegal := illegal, errRange := range }).acc = s.outputs.acc ∧
    (State.outputs { s with errIllegal := illegal, errRange := range }).sum = s.outputs.sum ∧
    (State.outputs { s with errIllegal := illegal, errRange := range }).csum = s.outputs.csum ∧
    (∀ k : Nat, k ≠ 2 → k ≠ 3 →
      (State.outputs { s with errIllegal := illegal, errRange := range }).status.getLsbD k =
        s.outputs.status.getLsbD k) ∧
    (s.defined = true → s.Inv → s.odd = false → s.outputs.acc = s.outputs.sum)

/-- Rule R28: no state is hidden. Two states with the same `acc_out` and STATUS agree in every state
element. -/
def Obligations.OutputsRevealEveryStateElement : Prop :=
  ∀ s t : State, s.outputs.acc = t.outputs.acc → s.outputs.status = t.outputs.status →
    s.acc = t.acc ∧ s.hold = t.hold ∧ s.odd = t.odd ∧ s.errIllegal = t.errIllegal ∧
      s.errRange = t.errRange

/-- Rule R32: the state and the outputs after reset, which are those after CLEAR. -/
def Obligations.OutputsAfterReset : Prop :=
  State.reset.acc = 0x0000 ∧ State.reset.hold = 0x00 ∧ State.reset.odd = false ∧
  State.reset.errIllegal = false ∧ State.reset.errRange = false ∧
  readOutputs State.reset = .ok
    { cmdReady := true, sum := 0x0000, csum := 0xFFFF, acc := 0x0000, status := 0x0000 } ∧
  ∀ (d : Data) (s : State), ∃ t, exec (.clear d) s = .next t ∧
    t = { State.reset with input := s.input } ∧ readOutputs t = readOutputs State.reset

/-- Rule R155: in the cycle of an edge the outputs show the state before it, whatever the inputs are;
from the next cycle they show the state after it. -/
def Obligations.OutputsShowTheStateBeforeTheEdge : Prop :=
  ∀ (p q : PortSample) (s : State), s.defined = true →
    (cycle p s).1 = .ok s.outputs ∧ (cycle p s).1 = (cycle q s).1 ∧
    ∃ t, (cycle p s).2 = .next t ∧ (cycle q t).1 = .ok t.outputs

/-! ### Before the first reset -/

/-- Before the first reset an output read faults (rule R33), and so does a command other than CLEAR (the
model's choice after U1, log 3); a CLEAR (rule R153) or a reset edge defines the state whatever it was. -/
def Obligations.UndefinedStateFaultsUntilResetOrClear : Prop :=
  ∀ s : State, s.defined = false →
    readOutputs s = .error .beforeFirstReset ∧
    (∀ c : Command, c.cmd ≠ 0x01 → accept c s = .fault .beforeFirstReset) ∧
    (∀ i : Instr, (∀ d, i ≠ .clear d) → exec i s = .fault .beforeFirstReset) ∧
    (∀ d : Data, accept ⟨0x01, d⟩ s = .next { State.reset with input := s.input }) ∧
    (∀ p : PortSample, p.rst = true → clockEdge p s = .next { State.reset with input := s.input })

/-- From power-up, whose contents are free values (log 4), an output read faults (rule R33; log 3), and
one reset edge or one CLEAR gives the reset state (rules R150 and R153). A step from power-up that meets
a reset edge and then a NOP ends in the reset state; the reset edge passes inside it (log 2). -/
def Obligations.PowerUpBecomesResetState : Prop :=
  readOutputs State.powerUp = .error .beforeFirstReset ∧
  (∀ d : Data, exec (.clear d) State.powerUp = .next State.reset) ∧
  (∀ p : PortSample, p.rst = true →
    clockEdge p State.powerUp = .next State.reset ∧
    ∀ d : Data, step { State.powerUp with input := [p, ⟨false, true, 0x00, d⟩] } =
      .next State.reset)

/-! ### Invariant -/

/-- Rule R24, its first half: reset establishes the invariant. -/
def Obligations.ResetMeetsTheInvariant : Prop :=
  State.reset.Inv ∧ State.reset.defined = true

/-- Rule R24: every step keeps the invariant that HOLD is zero when no byte is pending, from every
state that meets it; and so does every clock edge. -/
def Obligations.StepKeepsTheInvariant : Prop :=
  (∀ s t : State, s.Inv → step s = .next t → t.Inv) ∧
  (∀ (p : PortSample) (s t : State), s.Inv → clockEdge p s = .next t → t.Inv)

/-! ### Runs -/

/-- Rules R22 and R23: after any samples from reset, ODD is the stream length modulo 2, and HOLD is the
last byte of a stream of odd length, zero otherwise. -/
def Obligations.HoldAndOddFollowTheStream : Prop :=
  ∀ ps : List PortSample, ∃ t, clockEdges ps State.reset = .next t ∧
    (t.odd = true ↔ (ps.foldl streamAfterEdge []).length % 2 = 1) ∧
    (t.odd = true → (ps.foldl streamAfterEdge []).getLast? = some t.hold) ∧
    (t.odd = false → t.hold = 0x00)

/-- Rule R97: after CLEAR or reset, two command sequences that append the same stream leave the same
ACC, HOLD and ODD, which are the byte steps of the stream from the reset state. -/
def Obligations.SplitInvariance : Prop :=
  ∀ (cs ds : List Command) (s u : State), streamAfterAll [] cs = streamAfterAll [] ds →
    ∃ t v w : State, acceptAll (⟨0x01, 0⟩ :: cs) s = .next t ∧
      acceptAll (⟨0x01, 0⟩ :: ds) u = .next v ∧ acceptAll ds State.reset = .next w ∧
      t.acc = v.acc ∧ t.hold = v.hold ∧ t.odd = v.odd ∧
      t.acc = w.acc ∧ t.hold = w.hold ∧ t.odd = w.odd ∧
      t.acc = ((streamAfterAll [] cs).foldl byteStep State.reset).acc ∧
      t.hold = ((streamAfterAll [] cs).foldl byteStep State.reset).hold ∧
      t.odd = ((streamAfterAll [] cs).foldl byteStep State.reset).odd

/-- Rule R114: after reset, or after a CLEAR in any state, and whatever commands, errors, idle edges,
CLEARs and resets follow, SUM and CSUM are the reference function of rule R12 on the accepted stream. -/
def Obligations.OutputsAreTheChecksumOfTheStream : Prop :=
  ∀ ps : List PortSample,
    (∃ t, clockEdges ps State.reset = .next t ∧
      t.sum.toNat = ocSum (ps.foldl streamAfterEdge []) ∧
      t.csum.toNat = checksum (ps.foldl streamAfterEdge [])) ∧
    ∀ (d : Data) (s : State), ∃ t, clockEdges (⟨false, true, 0x01, d⟩ :: ps) s = .next t ∧
      t.sum.toNat = ocSum (ps.foldl streamAfterEdge []) ∧
      t.csum.toNat = checksum (ps.foldl streamAfterEdge [])

/-- Rule R99: ACC is 0 exactly when every complete word of the stream is 0; once non-zero it stays so
until CLEAR or reset. -/
def Obligations.AccIsZeroOnlyForZeroWords : Prop :=
  (∀ ps : List PortSample, ∃ t, clockEdges ps State.reset = .next t ∧
    (t.acc = 0x0000 ↔ ∀ k : Nat, 2 * k + 1 < (ps.foldl streamAfterEdge []).length →
      (ps.foldl streamAfterEdge [])[2 * k]? = some 0x00 ∧
      (ps.foldl streamAfterEdge [])[2 * k + 1]? = some 0x00)) ∧
  (∀ (p : PortSample) (s t : State), clockEdge p s = .next t → p.rst = false →
    ¬(p.cmdValid = true ∧ p.cmd = 0x01) → s.acc ≠ 0x0000 → t.acc ≠ 0x0000)

/-- Rule R102: whole words may be permuted without changing ACC; exchanging the bytes of a word does
change it. -/
def Obligations.WordOrderDoesNotMatterByteOrderDoes : Prop :=
  (∀ ws vs : List Word, ws.Perm vs →
    ∃ t, acceptAll (ws.map (fun w => ⟨0x11, w.zeroExtend 32⟩)) State.reset = .next t ∧
      acceptAll (vs.map (fun w => ⟨0x11, w.zeroExtend 32⟩)) State.reset = .next t) ∧
  (∃ t, acceptAll [⟨0x10, 0x01⟩, ⟨0x10, 0x02⟩] State.reset = .next t ∧ t.acc = 0x0102) ∧
  (∃ t, acceptAll [⟨0x10, 0x02⟩, ⟨0x10, 0x01⟩] State.reset = .next t ∧ t.acc = 0x0201)

/-- Rule R115: the checksum of an odd buffer is that of the buffer and a zero byte; at the block, an
ADD8 of 0x00 with a byte pending leaves SUM and CSUM and moves the pad into ACC. -/
def Obligations.ZeroPadEquivalence : Prop :=
  (∀ bytes : List Byte, bytes.length % 2 = 1 → checksum bytes = checksum (bytes ++ [0x00])) ∧
  (∀ s : State, s.defined = true → s.odd = true →
    ∃ t, exec (.add8 0x00) s = .next t ∧ t.sum = s.sum ∧ t.csum = s.csum ∧
      t.acc = s.sum ∧ t.hold = 0x00 ∧ t.odd = false ∧ t.status ≠ s.status)

/-- Rule R116: a buffer that carries, in a whole word at an even offset, the checksum it has with that
word zero, has checksum 0; and a block fed it shows ZERO = 1. -/
def Obligations.SelfVerification : Prop :=
  ∀ (before after : List Byte) (c : Word), before.length % 2 = 0 →
    c.toNat = checksum (before ++ [0x00, 0x00] ++ after) →
    checksum (before ++ [c.extractLsb' 8 8, c.extractLsb' 0 8] ++ after) = 0 ∧
    ∀ cs : List Command,
      streamAfterAll [] cs = before ++ [c.extractLsb' 8 8, c.extractLsb' 0 8] ++ after →
      ∃ t, acceptAll cs State.reset = .next t ∧ t.csum = 0x0000 ∧ t.zero = true

/-- Rules R117 and R118: CSUM is 0xFFFF exactly when SUM is 0, exactly when every byte fed is zero, the
empty stream among them; CSUM is 0 exactly when SUM is 0xFFFF, which needs a non-zero byte. -/
def Obligations.DistinguishedChecksumValues : Prop :=
  ∀ ps : List PortSample, ∃ t, clockEdges ps State.reset = .next t ∧
    (t.csum = 0xFFFF ↔ t.sum = 0x0000) ∧
    (t.sum = 0x0000 ↔ ∀ b ∈ ps.foldl streamAfterEdge [], b = 0x00) ∧
    (t.csum = 0x0000 ↔ t.sum = 0xFFFF) ∧
    (t.csum ≠ 0xFFFF → ∃ b ∈ ps.foldl streamAfterEdge [], b ≠ 0x00)

/-- Steps over presented commands are their acceptance in order (rules R49, R154 and R158): running as
many steps as there are commands gives what accepting them one after another gives. -/
def Obligations.StepsAcceptThePresentedCommandsInOrder : Prop :=
  ∀ (cs : List Command) (s : State),
    Host.Core.run core cs.length { s with input := cs.map PortSample.ofCommand } =
      acceptAll cs { s with input := [] }

/-- The model's steps refine the clock edges (rules R84 and R154; the step's grain is log 2). After as
many steps as the samples hold commands, no command is left and no further step exists; the edges still
to come give, from there, what all the edges give from the start. A run that faults does so in both. -/
def Obligations.StepsRefineClockEdges : Prop :=
  ∀ (ps : List PortSample) (s : State),
    (∀ t, Host.Core.run core (ps.filter PortSample.accepts).length { s with input := ps } = .next t →
      (∀ q ∈ t.input, q.rst = true ∨ q.cmdValid = false) ∧
      step t = .refused .noCommandPresented ∧
      clockEdges ps { s with input := [] } = clockEdges t.input { t with input := [] }) ∧
    (∀ r, Host.Core.run core (ps.filter PortSample.accepts).length { s with input := ps } = .fault r →
      clockEdges ps { s with input := [] } = .fault r) ∧
    (∀ r, Host.Core.run core (ps.filter PortSample.accepts).length { s with input := ps } ≠
      .refused r)

/-- Rule R154: `cmd_ready` is constantly 1; an edge with `rst = 0` and `cmd_valid = 1` performs the
command completely; an idle edge does nothing; and from a defined state, whatever the host drives, `k`
steps can be taken exactly when it presents at least `k` commands: one step per accepted command and no
other steps. What answers where there is no step is log 2. -/
def Obligations.OneStepPerAcceptedCommand : Prop :=
  (∀ s : State, cmdReady s = true) ∧
  (∀ (p : PortSample) (s : State), p.rst = false → p.cmdValid = true →
    (∀ i, decode ⟨p.cmd, p.data⟩ = .ok i → clockEdge p s = exec i s) ∧
    (∀ r, decode ⟨p.cmd, p.data⟩ = .error r → s.defined = true →
      clockEdge p s = .next { s with errIllegal := true })) ∧
  (∀ (p : PortSample) (s : State), p.rst = false → p.cmdValid = false → clockEdge p s = .next s) ∧
  (∀ (s : State) (k : Nat), s.defined = true →
    ((∃ t, Host.Core.run core k s = .next t) ↔
      k ≤ (s.input.filter (fun p => !p.rst && p.cmdValid)).length))

/-! ### The assembler and the host -/

/-- Rule R69: FEED's expansion appends exactly its bytes, with `floor(k/4)` ADD32 commands first and at
most one shorter ADD last, every one well-formed. -/
def Obligations.FeedAppendsExactlyItsBytes : Prop :=
  ∀ bytes stream : List Byte,
    streamAfterAll stream ((feed bytes).map encode) = stream ++ bytes ∧
    (∀ i ∈ feed bytes, i.wellFormed = true ∧ rejected (encode i) = false) ∧
    (feed bytes).length = bytes.length / 4 + (if bytes.length % 4 = 0 then 0 else 1) ∧
    (∀ i ∈ (feed bytes).take (bytes.length / 4), ∃ d, i = .add32 d)

/-- Rule R69: except for a raw `.cmd` line, an assembler line is refused or gives well-formed commands
that the block does not reject, and an `imm` that does not fit is refused. -/
def Obligations.AssemblerRefusesWhatTheBlockRejects : Prop :=
  (∀ (l : AsmLine) (cs : List Command), (∀ c d, l ≠ .raw c d) → assemble l = some cs →
    ∀ c ∈ cs, rejected c = false ∧ ∃ i : Instr, c = encode i ∧ i.wellFormed = true) ∧
  (∀ imm : Nat,
    (assemble (.add8 imm) = none ↔ 2 ^ 8 ≤ imm) ∧ (assemble (.add16 imm) = none ↔ 2 ^ 16 ≤ imm) ∧
    (assemble (.add24 imm) = none ↔ 2 ^ 24 ≤ imm) ∧ (assemble (.add32 imm) = none ↔ 2 ^ 32 ≤ imm)) ∧
  (∀ c : Command, assemble (.raw c.cmd.toNat c.data.toNat) = some [c])

/-- Rule R52: from any state, CLEAR and then accepted ADD (or NOP) commands whose bytes are `B` give a
usable state whose `csum_out` is `Checksum(B)`; with a rejected command among them the run ends with an
error flag set (rule R136). That the host then takes no checksum is the model's reading of the host's
check (log 11). -/
def Obligations.HostProcedureComputesTheChecksum : Prop :=
  ∀ (cs : List Command) (s : State), (∀ c ∈ cs, isClear c = false) →
    ((∀ c ∈ cs, rejected c = false) →
      ∃ t, hostRun cs s = .next t ∧ t.checksumUsable ∧ hostChecksum cs s = some t.csum ∧
        t.csum.toNat = checksum (streamAfterAll [] cs)) ∧
    ((∃ c ∈ cs, rejected c = true) →
      ∃ t, hostRun cs s = .next t ∧ (t.errIllegal = true ∨ t.errRange = true) ∧
        hostChecksum cs s = none)

/-- Rule R55: for each of the 12 kinds the pseudo-buffer fed is, byte for byte, the wire layout with the
checksum bytes zero; with the stored checksum fed in its place it is the wire layout. -/
def Obligations.PseudoBufferIsTheWireLayout : Prop :=
  ∀ m : IcmpMessage,
    streamAfterAll [] (itemsCommands m.pseudoItems) = ({ m with checksum := 0x0000 }).wireBytes ∧
    streamAfterAll [] (itemsCommands (m.itemsWith m.checksum)) = m.wireBytes ∧
    (∀ c ∈ itemsCommands m.pseudoItems, rejected c = false ∧ isClear c = false)

/-- Rule R120: `fix!()` followed by `checksum?()` is true, for every message, from whatever states the
block is in when each begins; and the fixed message differs only in its checksum. -/
def Obligations.FixThenVerifyIsTrue : Prop :=
  ∀ (m : IcmpMessage) (s u : State), ∃ f, m.fix s = some f ∧ f.verify u = some true ∧
    { f with checksum := m.checksum } = m ∧
    f.checksum.toNat = checksum ({ m with checksum := 0x0000 }).wireBytes

/-- Rule R119: for every sum `s` and stored checksum `C`, testing `s (+) C = 0xFFFF` agrees with
comparing `~16 s = C`, except when both are 0xFFFF, where the test says valid and the comparison not. -/
def Obligations.ZeroTestAgreesWithComparisonButOnce : Prop :=
  (∀ s c : Word,
    ((ocAdd s c = 0xFFFF ↔ ~~~s = c) ↔ ¬(s = 0xFFFF ∧ c = 0xFFFF)) ∧
    (s = 0xFFFF → c = 0xFFFF → ocAdd s c = 0xFFFF ∧ ~~~s ≠ c)) ∧
  (∀ (m : IcmpMessage) (s u : State), ∃ (sum : Word) (a b : Bool),
    sum.toNat = ocSum ({ m with checksum := 0x0000 }).wireBytes ∧
    m.verify s = some a ∧ m.verifyByZero u = some b ∧
    (a = b ↔ ¬(sum = 0xFFFF ∧ m.checksum = 0xFFFF)) ∧
    (sum = 0xFFFF → m.checksum = 0xFFFF → a = false ∧ b = true))
end

