-- ==== Sys2Proof/Laws/Decode.lean ====
section
/-! SUPPORT. What the decoder reads from each defined CMD, with every DATA (rule R62). -/

namespace Sys2Proof

@[simp] theorem decode_cmd_00 (d : Data) : decode ⟨0x00#8, d⟩ = .ok (.nop d) := by
  simp [decode]

@[simp] theorem decode_cmd_01 (d : Data) : decode ⟨0x01#8, d⟩ = .ok (.clear d) := by
  simp [decode]

@[simp] theorem decode_cmd_10 (d : Data) : decode ⟨0x10#8, d⟩ = .ok (.add8 d) := by
  simp [decode, Command.op, Command.subres, Command.nm1, addOfNm1]

@[simp] theorem decode_cmd_11 (d : Data) : decode ⟨0x11#8, d⟩ = .ok (.add16 d) := by
  simp [decode, Command.op, Command.subres, Command.nm1, addOfNm1]

@[simp] theorem decode_cmd_12 (d : Data) : decode ⟨0x12#8, d⟩ = .ok (.add24 d) := by
  simp [decode, Command.op, Command.subres, Command.nm1, addOfNm1]

@[simp] theorem decode_cmd_13 (d : Data) : decode ⟨0x13#8, d⟩ = .ok (.add32 d) := by
  simp [decode, Command.op, Command.subres, Command.nm1, addOfNm1]

end Sys2Proof
end

