-- ==== Sys2Proof/Laws/State.lean ====
section
/-! SUPPORT. One lemma per field per update of the state. -/

namespace Sys2Proof.Machine

@[simp] theorem holdByte_acc (b : Byte) (s : State) : (holdByte b s).acc = s.acc := rfl
@[simp] theorem holdByte_hold (b : Byte) (s : State) : (holdByte b s).hold = b := rfl
@[simp] theorem holdByte_odd (b : Byte) (s : State) : (holdByte b s).odd = true := rfl
@[simp] theorem holdByte_errIllegal (b : Byte) (s : State) : (holdByte b s).errIllegal = s.errIllegal := rfl
@[simp] theorem holdByte_errRange (b : Byte) (s : State) : (holdByte b s).errRange = s.errRange := rfl
@[simp] theorem holdByte_defined (b : Byte) (s : State) : (holdByte b s).defined = s.defined := rfl
@[simp] theorem holdByte_input (b : Byte) (s : State) : (holdByte b s).input = s.input := rfl

@[simp] theorem completeWord_acc (b : Byte) (s : State) : (completeWord b s).acc = ocAdd s.acc (bytePair s.hold b) := rfl
@[simp] theorem completeWord_hold (b : Byte) (s : State) : (completeWord b s).hold = 0x00 := rfl
@[simp] theorem completeWord_odd (b : Byte) (s : State) : (completeWord b s).odd = false := rfl
@[simp] theorem completeWord_errIllegal (b : Byte) (s : State) : (completeWord b s).errIllegal = s.errIllegal := rfl
@[simp] theorem completeWord_errRange (b : Byte) (s : State) : (completeWord b s).errRange = s.errRange := rfl
@[simp] theorem completeWord_defined (b : Byte) (s : State) : (completeWord b s).defined = s.defined := rfl
@[simp] theorem completeWord_input (b : Byte) (s : State) : (completeWord b s).input = s.input := rfl

@[simp] theorem clearAll_acc (s : State) : (clearAll s).acc = 0x0000 := rfl
@[simp] theorem clearAll_hold (s : State) : (clearAll s).hold = 0x00 := rfl
@[simp] theorem clearAll_odd (s : State) : (clearAll s).odd = false := rfl
@[simp] theorem clearAll_errIllegal (s : State) : (clearAll s).errIllegal = false := rfl
@[simp] theorem clearAll_errRange (s : State) : (clearAll s).errRange = false := rfl
@[simp] theorem clearAll_defined (s : State) : (clearAll s).defined = true := rfl
@[simp] theorem clearAll_input (s : State) : (clearAll s).input = s.input := rfl

@[simp] theorem resetEdge_acc (s : State) : (resetEdge s).acc = 0x0000 := rfl
@[simp] theorem resetEdge_hold (s : State) : (resetEdge s).hold = 0x00 := rfl
@[simp] theorem resetEdge_odd (s : State) : (resetEdge s).odd = false := rfl
@[simp] theorem resetEdge_errIllegal (s : State) : (resetEdge s).errIllegal = false := rfl
@[simp] theorem resetEdge_errRange (s : State) : (resetEdge s).errRange = false := rfl
@[simp] theorem resetEdge_defined (s : State) : (resetEdge s).defined = true := rfl
@[simp] theorem resetEdge_input (s : State) : (resetEdge s).input = s.input := rfl

@[simp] theorem reportIllegal_acc (s : State) : (reportIllegal s).acc = s.acc := rfl
@[simp] theorem reportIllegal_hold (s : State) : (reportIllegal s).hold = s.hold := rfl
@[simp] theorem reportIllegal_odd (s : State) : (reportIllegal s).odd = s.odd := rfl
@[simp] theorem reportIllegal_errIllegal (s : State) : (reportIllegal s).errIllegal = true := rfl
@[simp] theorem reportIllegal_errRange (s : State) : (reportIllegal s).errRange = s.errRange := rfl
@[simp] theorem reportIllegal_defined (s : State) : (reportIllegal s).defined = s.defined := rfl
@[simp] theorem reportIllegal_input (s : State) : (reportIllegal s).input = s.input := rfl

@[simp] theorem reportRange_acc (s : State) : (reportRange s).acc = s.acc := rfl
@[simp] theorem reportRange_hold (s : State) : (reportRange s).hold = s.hold := rfl
@[simp] theorem reportRange_odd (s : State) : (reportRange s).odd = s.odd := rfl
@[simp] theorem reportRange_errIllegal (s : State) : (reportRange s).errIllegal = s.errIllegal := rfl
@[simp] theorem reportRange_errRange (s : State) : (reportRange s).errRange = true := rfl
@[simp] theorem reportRange_defined (s : State) : (reportRange s).defined = s.defined := rfl
@[simp] theorem reportRange_input (s : State) : (reportRange s).input = s.input := rfl

@[simp] theorem presentFirst_acc (c : Command) (s : State) : (presentFirst c s).acc = s.acc := rfl
@[simp] theorem presentFirst_hold (c : Command) (s : State) : (presentFirst c s).hold = s.hold := rfl
@[simp] theorem presentFirst_odd (c : Command) (s : State) : (presentFirst c s).odd = s.odd := rfl
@[simp] theorem presentFirst_errIllegal (c : Command) (s : State) : (presentFirst c s).errIllegal = s.errIllegal := rfl
@[simp] theorem presentFirst_errRange (c : Command) (s : State) : (presentFirst c s).errRange = s.errRange := rfl
@[simp] theorem presentFirst_defined (c : Command) (s : State) : (presentFirst c s).defined = s.defined := rfl
@[simp] theorem presentFirst_input (c : Command) (s : State) : (presentFirst c s).input = PortSample.ofCommand c :: s.input := rfl

end Sys2Proof.Machine
end

