-- ==== Sys2Proof/Laws/Ops.lean ====
section
/-! SUPPORT. What each shared operation can do, said once: `fold`, the byte steps, the common ADD, and
the effect of a command. -/

namespace Sys2Proof.Machine

/-! ### fold -/

theorem foldLoop_of_le {x : Nat} (fuel : Nat) (h : x ≤ 0xFFFF) : foldLoop fuel x = x := by
  cases fuel <;> simp [foldLoop, Nat.not_lt.mpr h]

@[simp] theorem fold_of_le {x : Nat} (h : x ≤ 0xFFFF) : fold x = x := foldLoop_of_le x h

/-- One iteration of the loop of rule R9, in division and remainder. -/
theorem fold_iteration (x : Nat) : (x &&& 0xFFFF) + (x >>> 16) = x % 65536 + x / 65536 := by
  rw [Nat.and_two_pow_sub_one_eq_mod x 16, Nat.shiftRight_eq_div_pow]

/-- Any fuel of at least `x` gives the same result. -/
theorem foldLoop_fuel {x f g : Nat} (hf : x ≤ f) (hg : x ≤ g) : foldLoop f x = foldLoop g x := by
  induction f generalizing x g with
  | zero =>
    obtain rfl : x = 0 := by omega
    rw [foldLoop_of_le 0 (by omega), foldLoop_of_le g (by omega)]
  | succ f ih =>
    by_cases hx : x ≤ 0xFFFF
    · rw [foldLoop_of_le _ hx, foldLoop_of_le _ hx]
    · cases g with
      | zero => omega
      | succ g =>
        have lower : x % 65536 + x / 65536 < x := by omega
        simp only [foldLoop, fold_iteration, if_pos (Nat.not_le.mp hx)]
        exact ih (by omega) (by omega)

/-- `fold` in one expression: 0 at 0, otherwise the one value in 1 to 0xFFFF that is `x` modulo
0xFFFF. -/
theorem fold_closed_form (x : Nat) : fold x = if x = 0 then 0 else (x - 1) % 65535 + 1 := by
  induction x using Nat.strong_induction_on with
  | _ x ih =>
    by_cases h : x ≤ 0xFFFF
    · rw [fold_of_le h]; split <;> omega
    · obtain ⟨n, rfl⟩ : ∃ n, x = n + 1 := ⟨x - 1, by omega⟩
      have lower : (n + 1) % 65536 + (n + 1) / 65536 < n + 1 := by omega
      have once : fold (n + 1) = fold ((n + 1) % 65536 + (n + 1) / 65536) := by
        conv => lhs; unfold fold
        simp only [foldLoop, fold_iteration, if_pos (Nat.not_le.mp h)]
        exact foldLoop_fuel (by omega) le_rfl
      rw [once, ih _ lower, if_neg (by omega), if_neg (by omega)]
      omega

/-- The 16-bit result of `(+)` loses nothing of `fold(a + b)`. -/
theorem ocAdd_toNat (a b : Word) : (ocAdd a b).toNat = fold (a.toNat + b.toNat) := by
  have folded : fold (a.toNat + b.toNat) ≤ 0xFFFF := by
    rw [fold_closed_form]; split <;> omega
  simp only [ocAdd, BitVec.toNat_ofNat]
  omega

theorem bytePair_toNat (high low : Byte) :
    (bytePair high low).toNat = high.toNat * 256 + low.toNat := by
  simp only [bytePair, BitVec.toNat_append]
  rw [← Nat.shiftLeft_add_eq_or_of_lt low.isLt]
  omega

/-! ### byte steps -/

@[simp] theorem appendBytes_nil (s : State) : appendBytes [] s = s := rfl

@[simp] theorem appendBytes_cons (b : Byte) (bs : List Byte) (s : State) :
    appendBytes (b :: bs) s = appendBytes bs (byteStep s b) := rfl

theorem appendBytes_append (bs cs : List Byte) (s : State) :
    appendBytes (bs ++ cs) s = appendBytes cs (appendBytes bs s) := List.foldl_append

theorem byteStep_even {s : State} (b : Byte) (h : s.odd = false) : byteStep s b = holdByte b s := by
  simp [byteStep, h]

theorem byteStep_odd {s : State} (b : Byte) (h : s.odd = true) :
    byteStep s b = completeWord b s := by
  simp [byteStep, h]

@[simp] theorem byteStep_errIllegal (s : State) (b : Byte) :
    (byteStep s b).errIllegal = s.errIllegal := by
  unfold byteStep; split <;> rfl

@[simp] theorem byteStep_errRange (s : State) (b : Byte) :
    (byteStep s b).errRange = s.errRange := by
  unfold byteStep; split <;> rfl

@[simp] theorem byteStep_defined (s : State) (b : Byte) : (byteStep s b).defined = s.defined := by
  unfold byteStep; split <;> rfl

@[simp] theorem byteStep_input (s : State) (b : Byte) : (byteStep s b).input = s.input := by
  unfold byteStep; split <;> rfl

@[simp] theorem byteStep_isOdd (s : State) (b : Byte) : (byteStep s b).odd = !s.odd := by
  cases h : s.odd
  · rw [byteStep_even b h]; rfl
  · rw [byteStep_odd b h]; rfl

@[simp] theorem appendBytes_errIllegal (bs : List Byte) (s : State) :
    (appendBytes bs s).errIllegal = s.errIllegal := by
  induction bs generalizing s with
  | nil => rfl
  | cons b bs ih => simp [ih]

@[simp] theorem appendBytes_errRange (bs : List Byte) (s : State) :
    (appendBytes bs s).errRange = s.errRange := by
  induction bs generalizing s with
  | nil => rfl
  | cons b bs ih => simp [ih]

@[simp] theorem appendBytes_defined (bs : List Byte) (s : State) :
    (appendBytes bs s).defined = s.defined := by
  induction bs generalizing s with
  | nil => rfl
  | cons b bs ih => simp [ih]

@[simp] theorem appendBytes_input (bs : List Byte) (s : State) :
    (appendBytes bs s).input = s.input := by
  induction bs generalizing s with
  | nil => rfl
  | cons b bs ih => simp [ih]

/-! ### operands -/

@[simp] theorem dataBytes_length (n : Nat) (d : Data) : (dataBytes n d).length = n := by
  induction n with
  | zero => rfl
  | succ n ih => simp [dataBytes, ih]

theorem inRange_iff (n : Nat) (d : Data) : inRange n d = true ↔ d.toNat < 2 ^ (8 * n) := by
  simp [inRange]

/-- Every DATA is in range for ADD32 (rule R64). -/
@[simp] theorem inRange_four (d : Data) : inRange 4 d = true := (inRange_iff 4 d).mpr d.isLt

/-! ### the outcome of a command -/

@[simp] theorem whenDefined_of_defined {s : State} (t : State) (h : s.defined = true) :
    whenDefined s t = .next t := by
  simp [whenDefined, h]

@[simp] theorem whenDefined_of_undefined {s : State} (t : State) (h : s.defined = false) :
    whenDefined s t = .fault .beforeFirstReset := by
  simp [whenDefined, h]

theorem whenDefined_next {s t u : State} (h : whenDefined s t = .next u) :
    s.defined = true ∧ u = t := by
  cases hd : s.defined
  · simp [hd] at h
  · simp [hd] at h; exact ⟨rfl, h.symm⟩

/-- Everything the common ADD can do (rule R92). -/
theorem addCommand_cases {n : Nat} {d : Data} {s t : State} (h : addCommand n d s = .next t) :
    s.defined = true ∧
      ((inRange n d = true ∧ t = appendBytes (dataBytes n d) s) ∨
        (inRange n d = false ∧ t = reportRange s)) := by
  obtain ⟨hd, rfl⟩ := whenDefined_next h
  refine ⟨hd, ?_⟩
  cases hr : inRange n d <;> simp

/-- The number of bytes an ADD appends, 0 for NOP and CLEAR. -/
def byteCount : Instr → Nat
  | .nop _ => 0
  | .clear _ => 0
  | .add8 _ => 1
  | .add16 _ => 2
  | .add24 _ => 3
  | .add32 _ => 4

/-- Everything a command can do: CLEAR empties the state; the others run in a defined state, where
they append bytes (NOP none) or report a range error. -/
theorem exec_cases {i : Instr} {s t : State} (h : exec i s = .next t) :
    ((∃ d, i = .clear d) ∧ t = clearAll s) ∨
      ((∀ d, i ≠ .clear d) ∧ s.defined = true ∧
        ((inRange (byteCount i) i.data = true ∧ t = appendBytes (dataBytes (byteCount i) i.data) s) ∨
          ((∃ d, i = .nop d) ∧ t = s) ∨
          ((∀ d, i ≠ .nop d) ∧ inRange (byteCount i) i.data = false ∧ t = reportRange s))) := by
  cases i with
  | nop d =>
    obtain ⟨hd, rfl⟩ := whenDefined_next h
    exact .inr ⟨by simp, hd, .inr (.inl ⟨⟨d, rfl⟩, rfl⟩)⟩
  | clear d =>
    simp only [exec, execClear, Host.Outcome.next.injEq] at h
    exact .inl ⟨⟨d, rfl⟩, h.symm⟩
  | add8 d =>
    obtain ⟨hd, hc | hc⟩ := addCommand_cases h
    · exact .inr ⟨by simp, hd, .inl hc⟩
    · exact .inr ⟨by simp, hd, .inr (.inr ⟨by simp, hc⟩)⟩
  | add16 d =>
    obtain ⟨hd, hc | hc⟩ := addCommand_cases h
    · exact .inr ⟨by simp, hd, .inl hc⟩
    · exact .inr ⟨by simp, hd, .inr (.inr ⟨by simp, hc⟩)⟩
  | add24 d =>
    obtain ⟨hd, hc | hc⟩ := addCommand_cases h
    · exact .inr ⟨by simp, hd, .inl hc⟩
    · exact .inr ⟨by simp, hd, .inr (.inr ⟨by simp, hc⟩)⟩
  | add32 d =>
    obtain ⟨hd, hc | hc⟩ := addCommand_cases h
    · exact .inr ⟨by simp, hd, .inl hc⟩
    · exact .inr ⟨by simp, hd, .inr (.inr ⟨by simp, hc⟩)⟩

/-- Everything accepting a command can do (rules R131 and R134). -/
theorem accept_cases {c : Command} {s t : State} (h : accept c s = .next t) :
    (∃ i, decode c = .ok i ∧ exec i s = .next t) ∨
      ((∃ r, decode c = .error r) ∧ s.defined = true ∧ t = reportIllegal s) := by
  unfold accept at h
  split at h
  · exact .inl ⟨_, ‹_›, h⟩
  · obtain ⟨hd, rfl⟩ := whenDefined_next h
    exact .inr ⟨⟨_, ‹_›⟩, hd, rfl⟩

/-- Everything a clock edge can do (rules R84, R150 and R154). -/
theorem clockEdge_cases {p : PortSample} {s t : State} (h : clockEdge p s = .next t) :
    (p.rst = true ∧ t = resetEdge s) ∨
      (p.rst = false ∧ p.cmdValid = true ∧ accept ⟨p.cmd, p.data⟩ s = .next t) ∨
      (p.rst = false ∧ p.cmdValid = false ∧ t = s) := by
  unfold clockEdge at h
  cases hr : p.rst <;> cases hv : p.cmdValid <;> simp [hr, hv] at h ⊢
  · exact h.symm
  · exact h
  · exact h.symm
  · exact h.symm

/-- An edge that accepts no command resets or leaves the state (rules R84 and R150). -/
theorem clockEdge_of_quiet {p : PortSample} (s : State) (h : p.accepts = false) :
    clockEdge p s = .next (if p.rst then resetEdge s else s) := by
  cases hr : p.rst <;> cases hv : p.cmdValid <;> simp_all [clockEdge, PortSample.accepts]

/-- An edge that accepts a command is its acceptance (rule R154). -/
theorem clockEdge_of_accepts {p : PortSample} (s : State) (h : p.accepts = true) :
    clockEdge p s = accept ⟨p.cmd, p.data⟩ s := by
  simp only [PortSample.accepts, Bool.and_eq_true, Bool.not_eq_true'] at h
  simp [clockEdge, h]

@[simp] theorem advanceFrom_nil (s : State) : advanceFrom [] s = .refused .noCommandPresented := rfl

theorem advanceFrom_accepts {p : PortSample} (rest : List PortSample) (s : State)
    (h : p.accepts = true) :
    advanceFrom (p :: rest) s = accept ⟨p.cmd, p.data⟩ { s with input := rest } := by
  rw [advanceFrom, if_pos h, clockEdge_of_accepts _ h]

theorem advanceFrom_quiet {p : PortSample} (rest : List PortSample) (s : State)
    (h : p.accepts = false) :
    advanceFrom (p :: rest) s = advanceFrom rest (if p.rst then resetEdge s else s) := by
  rw [advanceFrom, if_neg (by simp [h]), clockEdge_of_quiet s h]

/-- Everything a step can do: it accepts the next command, in the state it stands in or, after a reset
edge, in the reset state. -/
theorem advanceFrom_cases {ps : List PortSample} {s t : State} (h : advanceFrom ps s = .next t) :
    ∃ (p : PortSample) (rest : List PortSample), p ∈ ps ∧ p.accepts = true ∧
      (accept ⟨p.cmd, p.data⟩ { s with input := rest } = .next t ∨
        accept ⟨p.cmd, p.data⟩ { State.reset with input := rest } = .next t) := by
  induction ps generalizing s with
  | nil => simp at h
  | cons p ps ih =>
    cases hp : p.accepts
    · rw [advanceFrom_quiet ps s hp] at h
      obtain ⟨q, rest, hq, ha, hc⟩ := ih h
      refine ⟨q, rest, List.mem_cons_of_mem p hq, ha, ?_⟩
      cases hr : p.rst
      · simpa [hr] using hc
      · simp only [hr, if_true, resetEdge, or_self] at hc
        exact .inr hc
    · rw [advanceFrom_accepts ps s hp] at h
      exact ⟨p, ps, List.mem_cons_self, hp, .inl h⟩

/-! ### Platform reads -/

/-- At an output port a platform read is the host's read of that port. -/
theorem platformRead_output {m : PlatformRegMap} {a : Nat} {p : PortName}
    (mapped : m.lookup a = some p) (output : p.direction = .output) (s : State) :
    platformRead m a s = (readOutputs s).map (fun o => o.port p) := by
  simp [platformRead, mapped, output]

/-- Where no output port stands a platform read answers nothing, in every state (log 8). -/
theorem platformRead_no_output {m : PlatformRegMap} {a : Nat}
    (noOutput : ∀ p, m.lookup a = some p → p.direction = .input) (s : State) :
    platformRead m a s = .ok none := by
  unfold platformRead
  cases mapped : m.lookup a with
  | none => rfl
  | some p => simp [noOutput p mapped]

end Sys2Proof.Machine
end

