-- ==== Sys2Proof/Laws/PerInstr.lean ====
section
/-! SUPPORT. The statements made per instruction: the decoder reads back what the encoder writes, with
every DATA (rules R62 and R67). -/

namespace Sys2Proof.Laws.DecodeEncode

def Statement (i : Instr) : Prop := decode (encode i) = .ok i

theorem nop (d : Data) : Statement (.nop d) := decode_cmd_00 d

theorem clear (d : Data) : Statement (.clear d) := decode_cmd_01 d

theorem add8 (d : Data) : Statement (.add8 d) := decode_cmd_10 d

theorem add16 (d : Data) : Statement (.add16 d) := decode_cmd_11 d

theorem add24 (d : Data) : Statement (.add24 d) := decode_cmd_12 d

theorem add32 (d : Data) : Statement (.add32 d) := decode_cmd_13 d

end Sys2Proof.Laws.DecodeEncode
end

