-- ==== Sys2Proof/Laws/Stream.lean ====
section
/-! SUPPORT. The reference sum and the stream of a run. -/

namespace Sys2Proof.Machine

/-- The words of a stream may be summed in two parts, if the first ends at a word's end. -/
theorem wordSum_append (front back : List Byte) (h : front.length % 2 = 0) :
    wordSum (front ++ back) = wordSum front + wordSum back := by
  induction front using wordSum.induct with
  | case1 high low rest ih =>
    simp only [List.length_cons] at h
    simp only [List.cons_append, wordSum, ih (by omega)]
    omega
  | case2 l hl =>
    match l with
    | [] => simp [wordSum]
    | [_] => simp at h
    | high :: low :: rest => exact absurd rfl (hl high low rest)

@[simp] theorem streamAfterAll_nil (stream : List Byte) : streamAfterAll stream [] = stream := rfl

@[simp] theorem streamAfterAll_cons (stream : List Byte) (c : Command) (cs : List Command) :
    streamAfterAll stream (c :: cs) = streamAfterAll (streamAfter stream c) cs := rfl

theorem streamAfterAll_append (stream : List Byte) (cs ds : List Command) :
    streamAfterAll stream (cs ++ ds) = streamAfterAll (streamAfterAll stream cs) ds :=
  List.foldl_append

theorem streamAfter_ok {c : Command} {i : Instr} (stream : List Byte) (h : decode c = .ok i)
    (hc : ∀ d, i ≠ .clear d) : streamAfter stream c = stream ++ appendedBytes i := by
  unfold streamAfter
  rw [h]
  cases i <;> first | rfl | exact absurd rfl (hc _)

theorem streamAfter_reserved {c : Command} {r : Reserved} (stream : List Byte)
    (h : decode c = .error r) : streamAfter stream c = stream := by
  unfold streamAfter
  rw [h]

end Sys2Proof.Machine
end

