-- ==== Sys2Proof/Tests/Slice0.lean ====
section
/-! SUPPORT. Tests with expected values from the spec (95_test_vectors.md and the rules' examples), and
for each statement with hypotheses a concrete state and operands that meet them. -/

namespace Sys2Proof.Tests

open Sys2Proof.Machine

/-- A defined state with nothing to take. -/
def st (acc : Word) (hold : Byte) (odd illegal range : Bool) : State :=
  ⟨acc, hold, odd, illegal, range, true, []⟩

/-- The state of an outcome, if it is a next state. -/
def nextOf : Host.Outcome State Fault Refusal → Option State
  | .next s => some s
  | .fault _ => none
  | .refused _ => none

/-! ### WellFormed: each check refuses an ill-formed term -/

theorem test_wf_refuses_nop_with_data : (Instr.nop 1).wellFormed = false := by decide

theorem test_wf_refuses_clear_with_data : (Instr.clear 0xFFFFFFFF).wellFormed = false := by decide

theorem test_wf_refuses_wide_add8 : (Instr.add8 0x100).wellFormed = false := by decide

theorem test_wf_refuses_wide_add16 : (Instr.add16 0x10000).wellFormed = false := by decide

theorem test_wf_refuses_wide_add24 : (Instr.add24 0x1000000).wellFormed = false := by decide

theorem test_wf_accepts_widest :
    (Instr.nop 0).wellFormed ∧ (Instr.clear 0).wellFormed ∧ (Instr.add8 0xFF).wellFormed ∧
      (Instr.add16 0xFFFF).wellFormed ∧ (Instr.add24 0xFFFFFF).wellFormed ∧
      (Instr.add32 0xFFFFFFFF).wellFormed := by decide

/-! ### Decode: words written out from rules R61 and R62 (OP, SUB) -/

theorem test_decode_nop : decode ⟨0b0000_0000, 0xDEADBEEF⟩ = .ok (.nop 0xDEADBEEF) := by rfl

theorem test_decode_clear : decode ⟨0b0000_0001, 0⟩ = .ok (.clear 0) := by rfl

theorem test_decode_add8 : decode ⟨0b0001_0000, 0xAB⟩ = .ok (.add8 0xAB) := by rfl

theorem test_decode_add16 : decode ⟨0b0001_0001, 0xCDEF⟩ = .ok (.add16 0xCDEF) := by rfl

theorem test_decode_add24 : decode ⟨0b0001_0010, 0xABCDEF⟩ = .ok (.add24 0xABCDEF) := by rfl

theorem test_decode_add32 : decode ⟨0b0001_0011, 0x12345678⟩ = .ok (.add32 0x12345678) := by rfl

theorem test_decode_table_words :
    decodeTableWord 8 0x13 = some (.add32 0) ∧
      decodeTableWord 40 0x00ABCDEF12 = some (.add24 0xABCDEF) ∧
      decodeTableWord 8 0xAB11 = some (.add16 0) ∧ decodeTableWord 8 0x18 = none := by decide

/-- Vectors V-R1 to V-R7: the edges of the reserved ranges. -/
theorem test_decode_reserved :
    decode ⟨0x02, 0⟩ = .error .controlSub ∧ decode ⟨0x0F, 0⟩ = .error .controlSub ∧
      decode ⟨0x14, 5⟩ = .error .addSubres ∧ decode ⟨0x18, 0⟩ = .error .addSubres ∧
      decode ⟨0x1C, 0⟩ = .error .addSubres ∧ decode ⟨0x1F, 0⟩ = .error .addSubres ∧
      decode ⟨0x20, 0⟩ = .error .operationClass ∧ decode ⟨0xFF, 0⟩ = .error .operationClass :=
  ⟨rfl, rfl, rfl, rfl, rfl, rfl, rfl, rfl⟩

/-! ### Primitives: the table of 95_test_vectors.md section 2.1 -/

theorem test_fold_table :
    fold 0x0 = 0x0000 ∧ fold 0xFFFF = 0xFFFF ∧ fold 0x10000 = 0x0001 ∧ fold 0x1FFFE = 0xFFFF ∧
      fold 0x1FFFF = 0x0001 ∧ fold 0x2C4DD = 0xC4DF ∧ fold 0xFFFF0000 = 0xFFFF ∧
      fold 0xFFFFFFFF = 0xFFFF ∧ fold 0x12345678 = 0x68AC := by decide

theorem test_checksum_reference :
    checksum [] = 0xFFFF ∧ checksum [0xFF, 0xFF] = 0x0000 ∧ checksum [0, 0] = 0xFFFF ∧
      checksum [1, 2, 3] = 0xFBFD ∧ checksum [1, 2, 3, 0] = 0xFBFD := by decide

/-- Scenario E6 and program P1: the EchoRequest pseudo-buffer has checksum 0x3B20. -/
theorem test_checksum_echo_request :
    checksum ([0x08, 0, 0, 0, 0x12, 0x34, 0, 1] ++ List.replicate 8 0xAA) = 0x3B20 := by decide

/-! ### Commands, one step each -/

/-- Vector V-N2, second command. -/
theorem test_nop_keeps_pending_byte :
    nextOf (exec (.nop 0x12345678) (st 0 0xAB true false false)) = some (st 0 0xAB true false false) ∧
      (st 0 0xAB true false false).status = 0xAB01 := by decide

/-- Example of rule R81. -/
theorem test_clear :
    nextOf (exec (.clear 0) (st 0x0102 0x03 true true true)) = some State.reset := by decide

/-- Vector V-A8b, second command. -/
theorem test_add8_completes_a_word :
    nextOf (exec (.add8 0xCD) (st 0 0xAB true false false)) = some (st 0xABCD 0 false false false) := by
  decide

/-- Vector V-A8d. -/
theorem test_add8_range :
    nextOf (exec (.add8 0x100) State.reset) = some (st 0 0 false false true) ∧
      (st 0 0 false false true).status = 0x0008 := by decide

/-- Vector V-A16d, second command. -/
theorem test_add16_end_around :
    nextOf (exec (.add16 0x0001) (st 0xFFFF 0 false false false)) =
      some (st 0x0001 0 false false false) := by decide

/-- Vector V-A16h. -/
theorem test_add16_range :
    nextOf (exec (.add16 0x10000) State.reset) = some (st 0 0 false false true) := by decide

/-- Vector V-A24b, second command. -/
theorem test_add24_two_words :
    nextOf (exec (.add24 0x020304) (st 0 0x01 true false false)) =
      some (st 0x0406 0 false false false) := by decide

/-- Vector V-A24a, with its outputs. -/
theorem test_add24_even :
    nextOf (exec (.add24 0xABCDEF) State.reset) = some (st 0xABCD 0xEF true false false) ∧
      (st 0xABCD 0xEF true false false).outputs = ⟨true, 0x9ACE, 0x6531, 0xABCD, 0xEF01⟩ := by decide

/-- Vector V-A32a. -/
theorem test_add32_even :
    nextOf (exec (.add32 0x12345678) State.reset) = some (st 0x68AC 0 false false false) := by decide

/-- Vector V-A32b, with its outputs. -/
theorem test_add32_all_ones :
    nextOf (exec (.add32 0xFFFFFFFF) State.reset) = some (st 0xFFFF 0 false false false) ∧
      (st 0xFFFF 0 false false false).outputs = ⟨true, 0xFFFF, 0x0000, 0xFFFF, 0x0002⟩ := by decide

/-- Vector V-R8. -/
theorem test_reserved_with_wide_data :
    nextOf (accept ⟨0x17, 0xFFFFFFFF⟩ State.reset) = some (st 0 0 false true false) := by decide

/-- Vector V-RST2. -/
theorem test_reset_wins_over_command :
    nextOf (clockEdge ⟨true, true, 0x13, 0xFFFFFFFF⟩ (st 0x68AC 0x12 true true true)) =
      some State.reset := by decide

/-- A table word placed after reset is what the next step runs. -/
theorem test_step_runs_fetch_word :
    nextOf (step (State.reset.withFetchWord 40 0x00ABCDEF12)) =
      some (st 0xABCD 0xEF true false false) := by decide

theorem test_step_skips_idle_edges :
    nextOf (step { State.reset with
      input := [⟨false, false, 0x13, 7⟩, ⟨false, true, 0x10, 0xFF⟩, ⟨true, false, 0, 0⟩] }) =
      some { st 0 0xFF true false false with input := [⟨true, false, 0, 0⟩] } := by decide

/-- A reset edge passes before the command, which meets the reset state. -/
theorem test_step_passes_reset_edge :
    nextOf (step { st 0x1234 0x56 true true true with
      input := [⟨true, true, 0x13, 7⟩, ⟨false, true, 0x11, 0x0102⟩] }) =
      some (st 0x0102 0 false false false) := by decide

/-- Rule R154: with no command presented there is no step. -/
theorem test_no_step_without_command :
    nextOf (step State.reset) = none ∧
      nextOf (step { State.reset with input := [⟨true, true, 0x10, 1⟩] }) = none := by decide

/-! ### Assembler, written form, platform read -/

/-- Lines of programs P1 and P3. -/
theorem test_assembler_lines :
    assembleText "ADD8  0x08            ; 10:00000008   type".toList = some [⟨0x10, 0x08⟩] ∧
      assembleText ".cmd  0x14, 0x5       ; 14:00000005".toList = some [⟨0x14, 5⟩] ∧
      assembleText "ADD8 0x100".toList = none ∧
      assembleText "FEED 00 01 f2 03 f4".toList = some [⟨0x13, 0x0001F203⟩, ⟨0x10, 0xF4⟩] := by decide

theorem test_written_form : writeCommand ⟨0x13, 0xF4F5F6F7⟩ = "13:F4F5F6F7".toList := by decide

theorem test_platform_read :
    (platformRead [(16, .csumOut), (20, .cmd)] 16 State.reset).toOption = some (some 0xFFFF) ∧
      (platformRead [(16, .csumOut), (20, .cmd)] 20 State.reset).toOption = some none ∧
      (platformRead [(16, .csumOut), (20, .cmd)] 24 State.reset).toOption = some none := by decide

/-- Rule R33 faults an output read before the first reset; the other two answers are log 8. -/
theorem test_platform_read_before_reset :
    (platformRead [(16, .csumOut), (20, .cmd)] 16 State.powerUp).toOption = none ∧
      (platformRead [(16, .csumOut), (20, .cmd)] 20 State.powerUp).toOption = some none ∧
      (platformRead [(16, .csumOut), (20, .cmd)] 24 State.powerUp).toOption = some none :=
  ⟨rfl, rfl, rfl⟩

/-! ### Witnesses: concrete states and operands that meet each statement's hypotheses -/

/-- An idle edge, with a command standing at it that is not valid. -/
def idleSample : PortSample := ⟨false, false, 0x13, 0xFFFFFFFF⟩

/-- A reset edge, with a command standing at it. -/
def resetSample : PortSample := ⟨true, true, 0x13, 0xFFFFFFFF⟩

/-- The state of vector V-Z1, with samples to come. -/
def witnessState (samples : List PortSample) : State :=
  { st 0x0102 0x03 true false false with input := samples }

theorem witness_DecodeIsTotalOnCmd :
    (0x10 : BitVec 8).extractLsb' 4 4 = 0x1 ∧ (0x10 : BitVec 8).extractLsb' 2 2 = 0 ∧
      (0x10 : BitVec 8).extractLsb' 0 2 = 0 ∧ (0x11 : BitVec 8).extractLsb' 0 2 = 1 ∧
      (0x12 : BitVec 8).extractLsb' 0 2 = 2 ∧ (0x13 : BitVec 8).extractLsb' 0 2 = 3 ∧
      (0x13 : BitVec 8).extractLsb' 4 4 = 0x1 ∧ (0x13 : BitVec 8).extractLsb' 2 2 = 0 ∧
      ¬((0x14 : BitVec 8).extractLsb' 4 4 = 0x1 ∧ (0x14 : BitVec 8).extractLsb' 2 2 = 0) ∧
      ¬((0x02 : BitVec 8).extractLsb' 4 4 = 0x1 ∧ (0x02 : BitVec 8).extractLsb' 2 2 = 0) := by
  decide

theorem witness_ReservedCommandsAreTheThreeClasses :
    (decode ⟨0xFF, 0xFFFFFFFF⟩).toOption = none ∧ (witnessState []).defined = true := by decide

theorem witness_DecodeAgreesWithEncode :
    0xFFFFFFFF13 < 2 ^ 40 ∧ (encode (.add32 0xFFFFFFFF)).toTableWord = 0xFFFFFFFF13 := by decide

theorem witness_StepRunsTheDecodedCommand :
    (∀ q ∈ [idleSample, idleSample], q.rst = true ∨ q.cmdValid = false) ∧
      (∀ q ∈ [idleSample, idleSample], q.rst = false) ∧
      (∀ q ∈ [resetSample, idleSample], q.rst = true ∨ q.cmdValid = false) ∧
      (∃ q ∈ [resetSample, idleSample], q.rst = true) ∧
      (witnessState [resetSample, idleSample, ⟨false, true, 0x10, 0x04⟩]).input =
        [resetSample, idleSample] ++ ⟨false, true, 0x10, 0x04⟩ :: [] ∧
      (⟨false, true, 0x10, 0x04⟩ : PortSample).rst = false ∧
      (⟨false, true, 0x10, 0x04⟩ : PortSample).cmdValid = true ∧
      (witnessState [idleSample, idleSample, ⟨false, true, 0x10, 0x04⟩, idleSample]).input =
        [idleSample, idleSample] ++ ⟨false, true, 0x10, 0x04⟩ :: [idleSample] ∧
      decode ⟨0x10, 0x04⟩ = .ok (.add8 0x04) :=
  ⟨by decide, by decide, by decide, by decide, rfl, rfl, rfl, rfl, rfl⟩

theorem witness_StepRunsThePlacedTableWord : decodeTableWord 40 0x0000010011 = some (.add16 0x100) := by
  decide

theorem witness_StepOfReservedCommandReportsIllegal :
    (∀ q ∈ [idleSample], q.rst = true ∨ q.cmdValid = false) ∧ (∀ q ∈ [idleSample], q.rst = false) ∧
      (∀ q ∈ [resetSample], q.rst = true ∨ q.cmdValid = false) ∧ (∃ q ∈ [resetSample], q.rst = true) ∧
      (witnessState [resetSample, ⟨false, true, 0x1F, 0⟩]).input =
        [resetSample] ++ ⟨false, true, 0x1F, 0⟩ :: [] ∧
      (witnessState [idleSample, ⟨false, true, 0x1F, 0⟩]).input =
        [idleSample] ++ ⟨false, true, 0x1F, 0⟩ :: [] ∧
      decode ⟨0x1F, 0⟩ = .error .addSubres ∧ (witnessState []).defined = true ∧
      State.powerUp.defined = false :=
  ⟨by decide, by decide, by decide, by decide, rfl, rfl, rfl, rfl, rfl⟩

theorem witness_ResetEdgeGivesResetState :
    (⟨true, true, 0x13, 0xFFFFFFFF⟩ : PortSample).rst = true ∧
      (⟨true, false, 0x00, 0x0⟩ : PortSample).rst = true := by decide

theorem witness_NoStepWithoutACommand :
    (∀ q ∈ (witnessState [idleSample]).input, q.rst = true ∨ q.cmdValid = false) ∧
      (∀ q ∈ (witnessState [idleSample]).input, q.rst = false) ∧
      (∀ q ∈ (witnessState [resetSample, idleSample]).input, q.rst = true ∨ q.cmdValid = false) ∧
      (∃ q ∈ (witnessState [resetSample, idleSample]).input, q.rst = true) := by decide

theorem witness_DefinedBlockNeverStops :
    (witnessState [⟨false, true, 0xFF, 0⟩]).defined = true ∧
      ∃ p ∈ (witnessState [⟨false, true, 0xFF, 0⟩]).input, p.rst = false ∧ p.cmdValid = true := by
  decide

theorem witness_IdleEdgeChangesNothing :
    idleSample.rst = false ∧ idleSample.cmdValid = false ∧ (witnessState []).defined = true := by
  decide

/-- The one hypothesis of DataOfNopAndClearIsIgnored, NopChangesNothing,
ErrorsDoNotChangeLaterCommands and OutputsShowTheStateBeforeTheEdge. -/
theorem witness_defined : (witnessState [idleSample]).defined = true ∧ State.reset.defined = true := by
  decide

theorem witness_ByteStepHoldsOrCompletesAWord :
    State.reset.odd = false ∧ (witnessState []).odd = true := by decide

theorem witness_AddIsItsByteSteps :
    (0x12 : BitVec 8).extractLsb' 4 4 = 0x1 ∧ (0x12 : BitVec 8).extractLsb' 2 2 = 0 ∧
      (witnessState []).defined = true ∧
      2 ^ (8 * (((0x12 : BitVec 8).extractLsb' 0 2).toNat + 1)) ≤ (0x1000000 : Data).toNat ∧
      (0xFFFFFF : Data).toNat < 2 ^ (8 * (((0x12 : BitVec 8).extractLsb' 0 2).toNat + 1)) := by decide

/-- The range clauses of ADD8, ADD16 and ADD24 at their boundaries, with and without a pending byte. -/
theorem witness_AddsAppendTheirBytes :
    (0xFF : Data).toNat < 2 ^ 8 ∧ 2 ^ 8 ≤ (0x100 : Data).toNat ∧
      (0xFFFF : Data).toNat < 2 ^ 16 ∧ 2 ^ 16 ≤ (0x10000 : Data).toNat ∧
      (0xFFFFFF : Data).toNat < 2 ^ 24 ∧ 2 ^ 24 ≤ (0x1000000 : Data).toNat ∧
      State.reset.defined = true ∧ State.reset.odd = false ∧ State.reset.acc = 0 ∧
      (witnessState []).defined = true ∧ (witnessState []).odd = true ∧
      (st 0x0402 0 false false false).acc ≠ 0 ∧ (st 0x0402 0 false false false).odd = false := by
  decide

theorem witness_Add8CornerCase :
    State.reset.defined = true ∧ State.reset.Inv ∧ State.reset.odd = false := by decide

theorem witness_FoldIsTheFoldingLoop : 0xFFFF ≤ 0xFFFF ∧ 0xFFFF < 0x10000 := by decide

theorem witness_OnesComplementAlgebra : (0x0001 : Word) ≠ 0x0000 := by decide

theorem witness_OnlyReservedCommandsSetErrIllegal :
    decode ⟨0x02, 0xFFFFFFFF⟩ = .error .controlSub ∧
      accept ⟨0x02, 0xFFFFFFFF⟩ State.reset = .next (st 0 0 false true false) ∧
      State.reset.errIllegal = false ∧ (st 0 0 false true false).errIllegal = true :=
  ⟨rfl, rfl, rfl, rfl⟩

theorem witness_OnlyWideDataSetsErrRange :
    2 ^ 8 ≤ (0x100 : Data).toNat ∧ 2 ^ 16 ≤ (0x10000 : Data).toNat ∧
      2 ^ 24 ≤ (0x1000000 : Data).toNat ∧
      nextOf (accept ⟨0x11, 0x10000⟩ State.reset) = some (st 0 0 false false true) ∧
      State.reset.errRange = false ∧ (st 0 0 false false true).errRange = true := by decide

theorem witness_AtMostOneErrorPerCommand :
    nextOf (accept ⟨0xFF, 0xFFFFFFFF⟩ State.reset) = some (st 0 0 false true false) ∧
      State.reset.errIllegal = false ∧ (st 0 0 false true false).errIllegal = true ∧
      nextOf (accept ⟨0x12, 0xFFFFFFFF⟩ State.reset) = some (st 0 0 false false true) ∧
      State.reset.errRange = false ∧ (st 0 0 false false true).errRange = true ∧
      nextOf (accept ⟨0x00, 0xFFFFFFFF⟩ State.reset) = some State.reset ∧
      nextOf (accept ⟨0x01, 0xFFFFFFFF⟩ (st 0 0 false true true)) = some State.reset := by decide

theorem witness_ErrorFlagsAreSticky :
    nextOf (clockEdge ⟨false, true, 0x10, 0x41⟩ (st 0 0 false true true)) =
        some (st 0 0x41 true true true) ∧
      (⟨false, true, 0x10, 0x41⟩ : PortSample).rst = false ∧
      ¬((⟨false, true, 0x10, 0x41⟩ : PortSample).cmdValid = true ∧
        (⟨false, true, 0x10, 0x41⟩ : PortSample).cmd = 0x01) ∧
      (⟨false, true, 0x01, 0⟩ : PortSample).cmd = 0x01 ∧
      (⟨true, false, 0x10, 0⟩ : PortSample).rst = true := by decide

/-- The hypotheses of SumPadsThePendingByte's and OutputsIgnoreTheErrorFlags's last clauses. -/
theorem witness_no_pending_byte :
    (st 0x0402 0 false true true).defined = true ∧ (st 0x0402 0 false true true).Inv ∧
      (st 0x0402 0 false true true).odd = false := by decide

/-- Two states that differ only in the model's own fields. -/
theorem witness_OutputsRevealEveryStateElement :
    (witnessState []).outputs.acc = (witnessState [idleSample]).outputs.acc ∧
      (witnessState []).outputs.status = (witnessState [idleSample]).outputs.status := by decide

theorem witness_UndefinedStateFaultsUntilResetOrClear :
    State.powerUp.defined = false ∧ (⟨0x10, 0x41⟩ : Command).cmd ≠ 0x01 ∧
      (∀ d, Instr.add8 0x41 ≠ .clear d) ∧ (⟨true, true, 0, 0⟩ : PortSample).rst = true := by
  refine ⟨rfl, by decide, ?_, rfl⟩
  intro d h
  cases h

theorem witness_PowerUpBecomesResetState : (⟨true, true, 0x10, 0x41⟩ : PortSample).rst = true := by
  decide

theorem witness_StepKeepsTheInvariant :
    (witnessState [⟨false, true, 0x10, 0x41⟩]).Inv ∧
      nextOf (step (witnessState [⟨false, true, 0x10, 0x41⟩])) = some (st 0x0443 0 false false false) ∧
      nextOf (clockEdge ⟨false, true, 0x10, 0x41⟩ (witnessState [])) =
        some (st 0x0443 0 false false false) := by decide

theorem witness_SplitInvariance :
    streamAfterAll [] [⟨0x12, 0xABCDEF⟩] = streamAfterAll [] [⟨0x10, 0xAB⟩, ⟨0x11, 0xCDEF⟩] ∧
      streamAfterAll [] [⟨0x12, 0xABCDEF⟩] = [0xAB, 0xCD, 0xEF] := by decide

theorem witness_AccIsZeroOnlyForZeroWords :
    nextOf (clockEdge ⟨false, true, 0x11, 0xFFFF⟩ (st 0x0001 0 false false false)) =
        some (st 0x0001 0 false false false) ∧
      (⟨false, true, 0x11, 0xFFFF⟩ : PortSample).rst = false ∧
      ¬((⟨false, true, 0x11, 0xFFFF⟩ : PortSample).cmdValid = true ∧
        (⟨false, true, 0x11, 0xFFFF⟩ : PortSample).cmd = 0x01) ∧
      (st 0x0001 0 false false false).acc ≠ 0 := by decide

theorem witness_WordOrderDoesNotMatterByteOrderDoes :
    ([0x1234, 0xABCD] : List Word).Perm [0xABCD, 0x1234] := List.Perm.swap _ _ _

theorem witness_ZeroPadEquivalence :
    ([1, 2, 3] : List Byte).length % 2 = 1 ∧ (witnessState []).defined = true ∧
      (witnessState []).odd = true := by decide

/-- The message of programs P1 and P2, with its checksum 0x3B20 at offset 2. -/
theorem witness_SelfVerification :
    ([0x08, 0x00] : List Byte).length % 2 = 0 ∧
      (0x3B20 : Word).toNat = checksum ([0x08, 0x00] ++ [0x00, 0x00] ++
        ([0x12, 0x34, 0x00, 0x01] ++ List.replicate 8 0xAA)) ∧
      streamAfterAll [] [⟨0x11, 0x0800⟩, ⟨0x11, 0x3B20⟩, ⟨0x13, 0x12340001⟩, ⟨0x13, 0xAAAAAAAA⟩,
          ⟨0x13, 0xAAAAAAAA⟩] =
        [0x08, 0x00] ++ [(0x3B20 : Word).extractLsb' 8 8, (0x3B20 : Word).extractLsb' 0 8] ++
          ([0x12, 0x34, 0x00, 0x01] ++ List.replicate 8 0xAA) := by decide

theorem witness_DistinguishedChecksumValues :
    (st 0x0001 0 false false false).csum ≠ 0xFFFF := by decide

/-- One command between idle and reset edges: one step, after which no command is left; the same command
before the first reset faults. -/
theorem witness_StepsRefineClockEdges :
    ([idleSample, ⟨false, true, 0x10, 0x41⟩, resetSample].filter PortSample.accepts).length = 1 ∧
      Host.Core.run core 1
        { State.reset with input := [idleSample, ⟨false, true, 0x10, 0x41⟩, resetSample] } =
          .next { st 0 0x41 true false false with input := [resetSample] } ∧
      Host.Core.run core 1 { State.powerUp with input := [⟨false, true, 0x10, 0x41⟩] } =
        .fault .beforeFirstReset :=
  ⟨by decide, rfl, rfl⟩

theorem witness_OneStepPerAcceptedCommand :
    (⟨false, true, 0x10, 0x41⟩ : PortSample).rst = false ∧
      (⟨false, true, 0x10, 0x41⟩ : PortSample).cmdValid = true ∧
      decode ⟨0x10, 0x41⟩ = .ok (.add8 0x41) ∧ decode ⟨0x20, 0x41⟩ = .error .operationClass ∧
      idleSample.rst = false ∧ idleSample.cmdValid = false ∧
      (witnessState [idleSample, ⟨false, true, 0x20, 0x41⟩]).defined = true :=
  ⟨rfl, rfl, rfl, rfl, rfl, rfl, rfl⟩

theorem witness_AssemblerRefusesWhatTheBlockRejects :
    (∀ c d, AsmLine.add8 0xFF ≠ .raw c d) ∧ assemble (.add8 0xFF) = some [⟨0x10, 0xFF⟩] := by
  refine ⟨?_, by decide⟩
  intro c d h
  cases h

theorem witness_HostProcedureComputesTheChecksum :
    (∀ c ∈ [(⟨0x12, 0x010203⟩ : Command), ⟨0x00, 7⟩], isClear c = false ∧ rejected c = false) ∧
      (∀ c ∈ [(⟨0x10, 0x100⟩ : Command)], isClear c = false) ∧
      (∃ c ∈ [(⟨0x10, 0x100⟩ : Command)], rejected c = true) := by decide

theorem witness_ZeroTestAgreesWithComparisonButOnce :
    ocSum (IcmpMessage.wireBytes ⟨0x12, 0x34, 0x0000, .raw, [0xED, 0xCB]⟩) = (0xFFFF : Word).toNat ∧
      (⟨0x12, 0x34, 0xFFFF, .raw, [0xED, 0xCB]⟩ : IcmpMessage).checksum = 0xFFFF := by decide

end Sys2Proof.Tests
end

section
/-! PROOF. One's-complement arithmetic: `fold` as the loop of rule R9, and the single end-around carry of
a 16-bit addition (rules R10 and R91). -/

namespace Sys2Proof.Machine

/-- One turn of the loop of rule R9 above 0xFFFF. The turn lowers the number, so the fuel left over is
enough for what remains. -/
theorem fold_of_gt {x : Nat} (h : 0xFFFF < x) : fold x = fold ((x &&& 0xFFFF) + (x >>> 16)) := by
  obtain ⟨fuel, rfl⟩ : ∃ fuel, x = fuel + 1 := ⟨x - 1, by omega⟩
  have lower : ((fuel + 1) &&& 0xFFFF) + ((fuel + 1) >>> 16) ≤ fuel := by
    rw [fold_iteration]; omega
  calc fold (fuel + 1)
      = foldLoop fuel (((fuel + 1) &&& 0xFFFF) + ((fuel + 1) >>> 16)) := if_pos h
    _ = fold (((fuel + 1) &&& 0xFFFF) + ((fuel + 1) >>> 16)) := foldLoop_fuel lower le_rfl

theorem fold_le (x : Nat) : fold x ≤ 0xFFFF := by
  rw [fold_closed_form]; split <;> omega

/-- A sum of two 16-bit numbers needs at most one turn of the loop: the carry out of bit 15 is added
back and cannot carry again (rule R91). -/
theorem fold_of_le_two_words {t : Nat} (h : t ≤ 0x1FFFE) : fold t = t % 65536 + t / 65536 := by
  by_cases carry : 0xFFFF < t
  · have noSecondCarry : t % 65536 + t / 65536 ≤ 0xFFFF := by omega
    rw [fold_of_gt carry, fold_iteration, fold_of_le noSecondCarry]
  · rw [fold_of_le (Nat.not_lt.mp carry)]; omega

theorem toNat_add_toNat_le (a w : Word) : a.toNat + w.toNat ≤ 0x1FFFE := by
  have ha := a.isLt
  have hw := w.isLt
  omega

/-- Settles O21: the loop's equation on each side of 0xFFFF, and its bound. -/
theorem foldIsTheFoldingLoop : Obligations.FoldIsTheFoldingLoop :=
  fun x => ⟨fold_of_le, fold_of_gt, fold_le x⟩

/-- Settles O22: the sum of two words is at most 0x1FFFE, where `fold` is one end-around carry. -/
theorem additionHasOneEndAroundCarry : Obligations.AdditionHasOneEndAroundCarry := by
  intro a w
  have bound := toNat_add_toNat_le a w
  exact ⟨bound, ocAdd_toNat a w, (ocAdd_toNat a w).trans (fold_of_le_two_words bound)⟩

end Sys2Proof.Machine
end

section
/-! PROOF. The state along a run: the rules of a block with and without a defined state, and the one
induction by which a relation between the accepted stream and the state is kept. -/

namespace Sys2Proof.Machine

/-! ### Outputs, reset and CLEAR -/

/-- CLEAR and a reset edge leave the same state (rules R32, R81 and R150). -/
theorem clearAll_eq_resetEdge (s : State) : clearAll s = resetEdge s := rfl

theorem exec_clear (d : Data) (s : State) : exec (.clear d) s = .next (resetEdge s) :=
  congrArg Host.Outcome.next (clearAll_eq_resetEdge s)

theorem accept_of_ok {c : Command} {i : Instr} (s : State) (h : decode c = .ok i) :
    accept c s = exec i s := by
  rw [accept, h]

theorem accept_of_error {c : Command} {r : Reserved} (s : State) (h : decode c = .error r) :
    accept c s = whenDefined s (reportIllegal s) := by
  rw [accept, h]

theorem accept_clear (d : Data) (s : State) : accept ⟨0x01, d⟩ s = .next (resetEdge s) :=
  (accept_of_ok s (decode_cmd_01 d)).trans (exec_clear d s)

theorem clockEdge_of_rst {p : PortSample} (s : State) (h : p.rst = true) :
    clockEdge p s = .next (resetEdge s) := if_pos h

theorem accepts_of_rst {p : PortSample} (h : p.rst = true) : p.accepts = false := by
  simp [PortSample.accepts, h]

theorem readOutputs_of_undefined {s : State} (h : s.defined = false) :
    readOutputs s = .error .beforeFirstReset := by
  simp [readOutputs, h]

/-- The outputs do not show what the host will present. -/
theorem readOutputs_resetEdge (s : State) :
    readOutputs (resetEdge s) = readOutputs State.reset := rfl

/-! ### An undefined state -/

theorem exec_of_undefined {i : Instr} {s : State} (notClear : ∀ d, i ≠ .clear d)
    (h : s.defined = false) : exec i s = .fault .beforeFirstReset := by
  cases i with
  | clear d => exact absurd rfl (notClear d)
  | nop d | add8 d | add16 d | add24 d | add32 d => exact whenDefined_of_undefined _ h

theorem addOfNm1_ne_clear (n : BitVec 2) (d e : Data) : addOfNm1 n d ≠ .clear e := by
  unfold addOfNm1
  split_ifs <;> simp

/-- The decoder reads CLEAR from CMD 0x01 only (rule R62). -/
theorem cmd_of_decode_clear {c : Command} {d : Data} (h : decode c = .ok (.clear d)) :
    c.cmd = 0x01 := by
  unfold decode at h
  split_ifs at h with isNop isClear
  · simp at h
  · exact isClear
  · exact absurd (Except.ok.inj h) (addOfNm1_ne_clear _ _ _)

theorem accept_of_undefined {c : Command} {s : State} (notClear : c.cmd ≠ 0x01)
    (h : s.defined = false) : accept c s = .fault .beforeFirstReset := by
  cases decoded : decode c with
  | ok i =>
    have iNotClear : ∀ d, i ≠ .clear d := by
      rintro d rfl
      exact notClear (cmd_of_decode_clear decoded)
    rw [accept_of_ok s decoded, exec_of_undefined iNotClear h]
  | error r => rw [accept_of_error s decoded, whenDefined_of_undefined _ h]

/-! ### A defined state: every command and every edge has a next state -/

theorem exec_next_of_defined (i : Instr) {s : State} (h : s.defined = true) :
    ∃ t, exec i s = .next t := by
  cases i with
  | clear d => exact ⟨_, exec_clear d s⟩
  | nop d | add8 d | add16 d | add24 d | add32 d => exact ⟨_, whenDefined_of_defined _ h⟩

theorem accept_next_of_defined (c : Command) {s : State} (h : s.defined = true) :
    ∃ t, accept c s = .next t := by
  cases decoded : decode c with
  | ok i =>
    rw [accept_of_ok s decoded]
    exact exec_next_of_defined i h
  | error r =>
    rw [accept_of_error s decoded]
    exact ⟨_, whenDefined_of_defined _ h⟩

theorem clockEdge_next_of_defined (p : PortSample) {s : State} (h : s.defined = true) :
    ∃ t, clockEdge p s = .next t := by
  cases accepted : p.accepts
  · exact ⟨_, clockEdge_of_quiet s accepted⟩
  · rw [clockEdge_of_accepts s accepted]
    exact accept_next_of_defined _ h

theorem clockEdges_cons {p : PortSample} {s t : State} (ps : List PortSample)
    (h : clockEdge p s = .next t) : clockEdges (p :: ps) s = clockEdges ps t := by
  rw [clockEdges, h]

/-! ### Relations between the stream and the state -/

/-- One rule for the bytes of every command: in range its low bytes, otherwise none (rule R92). -/
theorem appendedBytes_eq (i : Instr) : appendedBytes i =
    if inRange (byteCount i) i.data then dataBytes (byteCount i) i.data else [] := by
  cases i with
  | nop d | clear d => simp [appendedBytes, byteCount, dataBytes]
  | add8 d | add16 d | add24 d => rfl
  | add32 d => exact (if_pos (inRange_four d)).symm

theorem streamAfter_clear {c : Command} {d : Data} (stream : List Byte)
    (h : decode c = .ok (.clear d)) : streamAfter stream c = [] := by
  rw [streamAfter, h]

theorem streamAfterEdge_of_rst {p : PortSample} (stream : List Byte) (h : p.rst = true) :
    streamAfterEdge stream p = [] := if_pos h

theorem streamAfterEdge_of_command {p : PortSample} (stream : List Byte) (reset : p.rst = false)
    (valid : p.cmdValid = true) :
    streamAfterEdge stream p = streamAfter stream ⟨p.cmd, p.data⟩ := by
  simp [streamAfterEdge, reset, valid]

theorem streamAfterEdge_of_idle {p : PortSample} (stream : List Byte) (reset : p.rst = false)
    (valid : p.cmdValid = false) : streamAfterEdge stream p = stream := by
  simp [streamAfterEdge, reset, valid]

/-- A relation between the accepted stream and the state that holds where the stream is emptied and is
kept by each shared operation: a byte step and the two error reports. -/
structure KeptAlongStream (R : List Byte → State → Prop) : Prop where
  empty : ∀ s, R [] (resetEdge s)
  byte : ∀ stream s b, R stream s → R (stream ++ [b]) (byteStep s b)
  illegal : ∀ stream s, R stream s → R stream (reportIllegal s)
  range : ∀ stream s, R stream s → R stream (reportRange s)

namespace KeptAlongStream

variable {R : List Byte → State → Prop} (kept : KeptAlongStream R)
include kept

theorem of_appendBytes (bs : List Byte) {stream : List Byte} {s : State} (h : R stream s) :
    R (stream ++ bs) (appendBytes bs s) := by
  induction bs generalizing stream s with
  | nil => simpa using h
  | cons b bs ih => simpa using ih (kept.byte stream s b h)

theorem of_exec {c : Command} {i : Instr} {stream : List Byte} {s t : State} (h : R stream s)
    (decoded : decode c = .ok i) (next : exec i s = .next t) :
    R (streamAfter stream c) t := by
  obtain ⟨⟨d, rfl⟩, rfl⟩ | ⟨notClear, -, appended⟩ := exec_cases next
  · rw [streamAfter_clear stream decoded]
    exact kept.empty s
  · rw [streamAfter_ok stream decoded notClear]
    obtain ⟨fits, rfl⟩ | ⟨⟨d, rfl⟩, rfl⟩ | ⟨-, tooWide, rfl⟩ := appended
    · rw [appendedBytes_eq, if_pos fits]
      exact kept.of_appendBytes _ h
    · simpa [appendedBytes] using h
    · simpa [appendedBytes_eq, tooWide] using kept.range stream s h

theorem of_accept {c : Command} {stream : List Byte} {s t : State} (h : R stream s)
    (next : accept c s = .next t) : R (streamAfter stream c) t := by
  obtain ⟨i, decoded, executed⟩ | ⟨⟨r, reserved⟩, -, rfl⟩ := accept_cases next
  · exact kept.of_exec h decoded executed
  · rw [streamAfter_reserved stream reserved]
    exact kept.illegal stream s h

theorem of_clockEdge {p : PortSample} {stream : List Byte} {s t : State} (h : R stream s)
    (next : clockEdge p s = .next t) : R (streamAfterEdge stream p) t := by
  obtain ⟨rst, rfl⟩ | ⟨rst, valid, accepted⟩ | ⟨rst, idle, rfl⟩ := clockEdge_cases next
  · rw [streamAfterEdge_of_rst stream rst]
    exact kept.empty s
  · rw [streamAfterEdge_of_command stream rst valid]
    exact kept.of_accept h accepted
  · rwa [streamAfterEdge_of_idle stream rst idle]

end KeptAlongStream

theorem keptAlongStream_defined : KeptAlongStream (fun _ s => s.defined = true) where
  empty _ := rfl
  byte _ s b h := (byteStep_defined s b).trans h
  illegal _ _ h := h
  range _ _ h := h

/-- From a defined state all edges have a next state, and a kept relation holds after them. -/
theorem KeptAlongStream.of_clockEdges {R : List Byte → State → Prop} (kept : KeptAlongStream R)
    (ps : List PortSample) {stream : List Byte} {s : State} (defined : s.defined = true)
    (h : R stream s) :
    ∃ t, clockEdges ps s = .next t ∧ t.defined = true ∧
      R (ps.foldl streamAfterEdge stream) t := by
  induction ps generalizing stream s with
  | nil => exact ⟨s, rfl, defined, h⟩
  | cons p ps ih =>
    obtain ⟨u, edge⟩ := clockEdge_next_of_defined p defined
    rw [clockEdges_cons ps edge]
    have stillDefined : u.defined = true :=
      keptAlongStream_defined.of_clockEdge (stream := stream) defined edge
    exact ih stillDefined (kept.of_clockEdge h edge)

/-! ### HOLD and ODD -/

theorem byteStep_inv (s : State) (b : Byte) : (byteStep s b).Inv := by
  intro _ even
  have wasOdd : s.odd = true := by simpa using even
  rw [byteStep_odd b wasOdd, completeWord_hold]

theorem keptAlongStream_inv : KeptAlongStream (fun _ s => s.Inv) where
  empty _ := fun _ _ => rfl
  byte _ s b _ := byteStep_inv s b
  illegal _ _ h := h
  range _ _ h := h

/-- Settles O40: the reset state is that of a reset edge. -/
theorem resetMeetsTheInvariant : Obligations.ResetMeetsTheInvariant :=
  ⟨keptAlongStream_inv.empty State.reset, rfl⟩

/-- Settles O41: a step is the acceptance of a command in the state it starts from or in the reset
state, and the invariant is kept by every acceptance and every edge. -/
theorem stepKeepsTheInvariant : Obligations.StepKeepsTheInvariant := by
  refine ⟨fun s t inv next => ?_, fun p s t inv next =>
    keptAlongStream_inv.of_clockEdge (stream := []) inv next⟩
  obtain ⟨p, rest, -, -, fromHere | fromReset⟩ := advanceFrom_cases next
  · exact keptAlongStream_inv.of_accept (stream := []) (s := { s with input := rest }) inv fromHere
  · exact keptAlongStream_inv.of_accept (stream := []) (s := { State.reset with input := rest })
      (fun _ _ => rfl) fromReset

/-- ODD and HOLD as functions of the stream (rules R22 and R23). -/
structure PendingByteOf (stream : List Byte) (s : State) : Prop where
  odd_iff : s.odd = true ↔ stream.length % 2 = 1
  hold_last : s.odd = true → stream.getLast? = some s.hold
  hold_zero : s.odd = false → s.hold = 0x00

theorem pendingByteOf_byteStep {stream : List Byte} {s : State} (h : PendingByteOf stream s)
    (b : Byte) : PendingByteOf (stream ++ [b]) (byteStep s b) := by
  have parity : stream.length % 2 = 1 ↔ ¬(stream ++ [b]).length % 2 = 1 := by
    rw [List.length_append, List.length_singleton]
    omega
  cases odd : s.odd with
  | false =>
    have even : ¬stream.length % 2 = 1 := by simp [← h.odd_iff, odd]
    rw [byteStep_even b odd]
    exact ⟨by simpa [parity] using even, by simp, by simp⟩
  | true =>
    have wasOdd : stream.length % 2 = 1 := h.odd_iff.mp odd
    rw [byteStep_odd b odd]
    exact ⟨by simpa using parity.mp wasOdd, by simp, by simp⟩

theorem keptAlongStream_pendingByteOf : KeptAlongStream PendingByteOf where
  empty _ := ⟨by simp, by simp, by simp⟩
  byte _ _ b h := pendingByteOf_byteStep h b
  illegal _ _ h := ⟨h.odd_iff, h.hold_last, h.hold_zero⟩
  range _ _ h := ⟨h.odd_iff, h.hold_last, h.hold_zero⟩

/-- Settles O42: `PendingByteOf` holds at reset and is kept along the stream. -/
theorem holdAndOddFollowTheStream : Obligations.HoldAndOddFollowTheStream := by
  intro ps
  obtain ⟨t, run, -, pending⟩ :=
    keptAlongStream_pendingByteOf.of_clockEdges ps (s := State.reset) rfl
      (keptAlongStream_pendingByteOf.empty State.reset)
  exact ⟨t, run, pending.odd_iff, pending.hold_last, pending.hold_zero⟩

/-! ### The fields of STATUS (rule R30) -/

/-- Every bit of STATUS. -/
theorem status_getLsbD (s : State) (k : Nat) : s.status.getLsbD k =
    if k = 0 then s.odd else if k = 1 then s.zero else if k = 2 then s.errIllegal
    else if k = 3 then s.errRange else if k < 8 then false else s.hold.getLsbD (k - 8) := by
  change BitVec.getLsbD (w := 8 + 4 + 1 + 1 + 1 + 1) (_ ++ _) k = _
  simp only [BitVec.getLsbD_append, BitVec.getLsbD_ofBool]
  rcases k with _ | _ | _ | _ | k
  case succ.succ.succ.succ =>
    have inReserved : k + 1 + 1 + 1 + 1 < 8 ↔ k < 4 := by omega
    simp [inReserved]
  all_goals simp

theorem status_getLsbD_of_four_le (s : State) {k : Nat} (h : 4 ≤ k) :
    s.status.getLsbD k = if k < 8 then false else s.hold.getLsbD (k - 8) := by
  rw [status_getLsbD, if_neg, if_neg, if_neg, if_neg] <;> omega

theorem status_odd (s : State) : s.status.getLsbD 0 = s.odd := status_getLsbD s 0

theorem status_zero (s : State) : s.status.getLsbD 1 = s.zero := status_getLsbD s 1

theorem status_errIllegal (s : State) : s.status.getLsbD 2 = s.errIllegal := status_getLsbD s 2

theorem status_errRange (s : State) : s.status.getLsbD 3 = s.errRange := status_getLsbD s 3

theorem status_reserved (s : State) : s.status.extractLsb' 4 4 = 0 := by
  refine BitVec.eq_of_getLsbD_eq fun i hi => ?_
  rw [BitVec.getLsbD_extractLsb', status_getLsbD_of_four_le s (by omega), if_pos (by omega)]
  simp

theorem status_hold (s : State) : s.status.extractLsb' 8 8 = s.hold := by
  refine BitVec.eq_of_getLsbD_eq fun i hi => ?_
  rw [BitVec.getLsbD_extractLsb', status_getLsbD_of_four_le s (by omega), if_neg (by omega)]
  simp [hi]

/-- Settles O33: the lemma of each field. -/
theorem statusFieldsStandInTheirPlaces : Obligations.StatusFieldsStandInTheirPlaces :=
  ⟨fun s => ⟨status_odd s, status_zero s, status_errIllegal s, status_errRange s,
    status_reserved s, status_hold s⟩, by decide⟩

/-- Settles O35: `acc_out` is ACC, and the other four elements are fields of STATUS. -/
theorem outputsRevealEveryStateElement : Obligations.OutputsRevealEveryStateElement := by
  intro s t sameAcc sameStatus
  change s.status = t.status at sameStatus
  refine ⟨sameAcc, ?_, ?_, ?_, ?_⟩
  · rw [← status_hold s, sameStatus, status_hold]
  · rw [← status_odd s, sameStatus, status_odd]
  · rw [← status_errIllegal s, sameStatus, status_errIllegal]
  · rw [← status_errRange s, sameStatus, status_errRange]

/-! ### Before and after the first reset -/

/-- Settles O36: the reset state is computed, and CLEAR leaves it (`exec_clear`). -/
theorem outputsAfterReset : Obligations.OutputsAfterReset :=
  ⟨rfl, rfl, rfl, rfl, rfl, by decide, fun d s =>
    ⟨resetEdge s, exec_clear d s, rfl, readOutputs_resetEdge s⟩⟩

/-- Settles O38: reads and commands by the rules of an undefined state, CLEAR and reset by theirs. -/
theorem undefinedStateFaultsUntilResetOrClear :
    Obligations.UndefinedStateFaultsUntilResetOrClear := fun s undefined =>
  ⟨readOutputs_of_undefined undefined,
    fun _ notClear => accept_of_undefined notClear undefined,
    fun _ notClear => exec_of_undefined notClear undefined,
    fun d => accept_clear d s,
    fun _ rst => clockEdge_of_rst s rst⟩

/-- A step that meets a reset edge and then a NOP ends in the reset state, whatever the state before
(rule R150; log 2). -/
theorem step_reset_nop {p : PortSample} (s : State) (d : Data) (rst : p.rst = true) :
    step { s with input := [p, ⟨false, true, 0x00, d⟩] } = .next State.reset := by
  calc step { s with input := [p, ⟨false, true, 0x00, d⟩] }
      = advanceFrom [⟨false, true, 0x00, d⟩]
          (resetEdge { s with input := [p, ⟨false, true, 0x00, d⟩] }) := by
        rw [step, advance, advanceFrom_quiet _ _ (accepts_of_rst rst), if_pos rst]
    _ = accept ⟨0x00, d⟩ State.reset := advanceFrom_accepts [] _ rfl
    _ = exec (.nop d) State.reset := accept_of_ok _ (decode_cmd_00 d)
    _ = .next State.reset := whenDefined_of_defined (s := State.reset) State.reset rfl

/-- Settles O39: power-up is an undefined state with no command presented. -/
theorem powerUpBecomesResetState : Obligations.PowerUpBecomesResetState :=
  ⟨readOutputs_of_undefined rfl,
    fun d => exec_clear d State.powerUp,
    fun _ rst => ⟨clockEdge_of_rst State.powerUp rst, fun d => step_reset_nop _ d rst⟩⟩

end Sys2Proof.Machine
end

section
/-! PROOF. Commands accepted in order: what the host has still to present does not matter to a
command, so a step over presented commands is the next acceptance (rules R14, R49 and R154). -/

namespace Sys2Proof.Machine

/-! ### Outcomes -/

/-- The state with another list of samples to come. -/
def State.withInput (s : State) (ps : List PortSample) : State := { s with input := ps }

/-- An outcome followed by what its next state, if it has one, leads to. -/
def andThen {σ φ ρ : Type} (o : Host.Outcome σ φ ρ) (f : σ → Host.Outcome σ φ ρ) :
    Host.Outcome σ φ ρ :=
  match o with
  | .next t => f t
  | .fault r => .fault r
  | .refused r => .refused r

/-- An outcome whose next state, if it has one, has other samples to come. -/
def outcomeWithInput (ps : List PortSample) (o : Host.Outcome State Fault Refusal) :
    Host.Outcome State Fault Refusal :=
  andThen o (fun t => .next (t.withInput ps))

theorem andThen_outcomeWithInput (ps : List PortSample) (o : Host.Outcome State Fault Refusal)
    (f : State → Host.Outcome State Fault Refusal) :
    andThen (outcomeWithInput ps o) f = andThen o (fun t => f (t.withInput ps)) := by
  cases o <;> rfl

/-! ### The samples to come do not matter to a command -/

theorem byteStep_withInput (ps : List PortSample) (s : State) (b : Byte) :
    byteStep (s.withInput ps) b = (byteStep s b).withInput ps := by
  cases odd : s.odd
  · rw [byteStep_even b odd, byteStep_even (s := s.withInput ps) b odd]; rfl
  · rw [byteStep_odd b odd, byteStep_odd (s := s.withInput ps) b odd]; rfl

theorem appendBytes_withInput (ps : List PortSample) (bs : List Byte) (s : State) :
    appendBytes bs (s.withInput ps) = (appendBytes bs s).withInput ps := by
  induction bs generalizing s with
  | nil => rfl
  | cons b bs ih => rw [appendBytes_cons, byteStep_withInput, ih, appendBytes_cons]

theorem whenDefined_withInput (ps : List PortSample) (s t : State) :
    whenDefined (s.withInput ps) (t.withInput ps) = outcomeWithInput ps (whenDefined s t) := by
  cases defined : s.defined
  · rw [whenDefined_of_undefined t defined,
      whenDefined_of_undefined (s := s.withInput ps) _ defined]
    rfl
  · rw [whenDefined_of_defined t defined, whenDefined_of_defined (s := s.withInput ps) _ defined]
    rfl

theorem addCommand_withInput (ps : List PortSample) (n : Nat) (d : Data) (s : State) :
    addCommand n d (s.withInput ps) = outcomeWithInput ps (addCommand n d s) := by
  rw [addCommand, addCommand, ← whenDefined_withInput, appendBytes_withInput]
  cases inRange n d <;> rfl

/-- No command reads or writes the samples to come (rule R14; log 1). -/
theorem exec_withInput (ps : List PortSample) (i : Instr) (s : State) :
    exec i (s.withInput ps) = outcomeWithInput ps (exec i s) := by
  cases i with
  | nop d => exact whenDefined_withInput ps s s
  | clear d => rfl
  | add8 d | add16 d | add24 d | add32 d => exact addCommand_withInput ps _ d s

theorem accept_withInput (ps : List PortSample) (c : Command) (s : State) :
    accept c (s.withInput ps) = outcomeWithInput ps (accept c s) := by
  cases decoded : decode c with
  | ok i => rw [accept_of_ok _ decoded, accept_of_ok _ decoded, exec_withInput]
  | error r =>
    rw [accept_of_error _ decoded, accept_of_error _ decoded]
    exact whenDefined_withInput ps s (reportIllegal s)

/-! ### Runs of steps -/

theorem run_succ (M : Host.Core) (k : Nat) (s : M.State) :
    M.run (k + 1) s = andThen (M.step s) (M.run k) := by
  rw [Host.Core.run]
  cases M.step s <;> rfl

/-- `k` steps of the machine, as the host runs them. -/
def runSteps (k : Nat) (s : State) : Host.Outcome State Fault Refusal := Host.Core.run core k s

theorem runSteps_succ (k : Nat) (s : State) :
    runSteps (k + 1) s = andThen (step s) (runSteps k) := run_succ core k s

theorem acceptAll_cons (c : Command) (cs : List Command) (s : State) :
    acceptAll (c :: cs) s = andThen (accept c s) (acceptAll cs) := by
  rw [acceptAll]
  cases accept c s <;> rfl

/-- A step takes the command presented first (rule R154). -/
theorem step_presented (c : Command) (rest : List PortSample) (s : State) :
    step (s.withInput (PortSample.ofCommand c :: rest)) = accept c (s.withInput rest) :=
  advanceFrom_accepts (p := PortSample.ofCommand c) rest
    (s.withInput (PortSample.ofCommand c :: rest)) rfl

/-- By induction on the commands: the step takes the first one, and its outcome differs from its
acceptance with nothing to come only in the samples still to come. -/
theorem runSteps_presented (cs : List Command) (s : State) :
    runSteps cs.length (s.withInput (cs.map PortSample.ofCommand)) =
      acceptAll cs (s.withInput []) := by
  induction cs generalizing s with
  | nil => rfl
  | cons c cs ih =>
    rw [List.map_cons]
    calc runSteps (cs.length + 1) (s.withInput (.ofCommand c :: cs.map .ofCommand))
        = andThen (step (s.withInput (.ofCommand c :: cs.map .ofCommand))) (runSteps cs.length) :=
          runSteps_succ _ _
      _ = andThen (accept c s) (fun t => runSteps cs.length (t.withInput (cs.map .ofCommand))) := by
          rw [step_presented, accept_withInput, andThen_outcomeWithInput]
      _ = andThen (accept c s) (fun t => acceptAll cs (t.withInput [])) :=
          congrArg (andThen (accept c s)) (funext ih)
      _ = acceptAll (c :: cs) (s.withInput []) := by
          rw [acceptAll_cons, accept_withInput, andThen_outcomeWithInput]

/-- Settles O50: as many steps as commands are `runSteps_presented`. -/
theorem stepsAcceptThePresentedCommandsInOrder :
    Obligations.StepsAcceptThePresentedCommandsInOrder := runSteps_presented

end Sys2Proof.Machine
end

section
/-! PROOF. The reference sum along the stream, the error flags along a list of commands, and the
host's procedure of rule R52, which rests on both. -/

namespace Sys2Proof.Machine

/-! ### ACC and SUM as functions of the stream -/

/-- Folding before or after adding a word is the same (rule R98). -/
theorem fold_fold_add (x w : Nat) : fold (fold x + w) = fold (x + w) := by
  simp only [fold_closed_form]
  split_ifs <;> omega

/-- A last byte without a partner adds nothing to the sum of the complete words (rule R21). -/
theorem wordSum_append_pending {front : List Byte} (b : Byte) (even : front.length % 2 = 0) :
    wordSum (front ++ [b]) = wordSum front := wordSum_append front [b] even

theorem wordSum_append_word {front : List Byte} (high low : Byte) (even : front.length % 2 = 0) :
    wordSum (front ++ [high, low]) = wordSum front + (bytePair high low).toNat := by
  rw [wordSum_append front [high, low] even, bytePair_toNat]
  simp [wordSum]

/-- A stream of odd length is whole words and one pending byte. -/
theorem exists_even_append_of_odd {stream : List Byte} {b : Byte} (odd : stream.length % 2 = 1)
    (last : stream.getLast? = some b) :
    ∃ front, stream = front ++ [b] ∧ front.length % 2 = 0 := by
  obtain ⟨front, rfl⟩ := List.getLast?_eq_some_iff.mp last
  rw [List.length_append, List.length_singleton] at odd
  exact ⟨front, rfl, by omega⟩

/-- The three stream elements of the state as functions of the stream (rules R21 to R23). -/
structure AccumulatorOf (stream : List Byte) (s : State) : Prop where
  acc_toNat : s.acc.toNat = fold (wordSum stream)
  pending : PendingByteOf stream s

/-- Where no byte is pending the stream is whole words. -/
theorem PendingByteOf.even_length {stream : List Byte} {s : State} (h : PendingByteOf stream s)
    (noByte : s.odd = false) : stream.length % 2 = 0 := by
  have notOdd : ¬stream.length % 2 = 1 := by simp [← h.odd_iff, noByte]
  omega

/-- Where a byte is pending the stream is whole words and then HOLD. -/
theorem PendingByteOf.exists_front {stream : List Byte} {s : State} (h : PendingByteOf stream s)
    (isPending : s.odd = true) :
    ∃ front, stream = front ++ [s.hold] ∧ front.length % 2 = 0 :=
  exists_even_append_of_odd (h.odd_iff.mp isPending) (h.hold_last isPending)

theorem acc_byteStep_toNat {stream : List Byte} {s : State} (h : AccumulatorOf stream s)
    (b : Byte) : (byteStep s b).acc.toNat = fold (wordSum (stream ++ [b])) := by
  cases odd : s.odd with
  | false =>
    rw [byteStep_even b odd, holdByte_acc, h.acc_toNat,
      wordSum_append_pending b (h.pending.even_length odd)]
  | true =>
    obtain ⟨front, split, even⟩ := h.pending.exists_front odd
    have accBefore : s.acc.toNat = fold (wordSum front) := by
      rw [h.acc_toNat, split, wordSum_append_pending _ even]
    rw [byteStep_odd b odd, completeWord_acc, ocAdd_toNat, accBefore, fold_fold_add, split,
      List.append_assoc]
    exact congrArg fold (wordSum_append_word s.hold b even).symm

theorem keptAlongStream_accumulatorOf : KeptAlongStream AccumulatorOf where
  empty s := ⟨rfl, keptAlongStream_pendingByteOf.empty s⟩
  byte _ _ b h := ⟨acc_byteStep_toNat h b, pendingByteOf_byteStep h.pending b⟩
  illegal _ _ h := ⟨h.acc_toNat, keptAlongStream_pendingByteOf.illegal _ _ h.pending⟩
  range _ _ h := ⟨h.acc_toNat, keptAlongStream_pendingByteOf.range _ _ h.pending⟩

/-- Rule R114: SUM is the reference sum of rule R12; its padding byte is the zero byte that SUM puts
after HOLD (rule R110). -/
theorem AccumulatorOf.sum_toNat {stream : List Byte} {s : State} (h : AccumulatorOf stream s) :
    s.sum.toNat = ocSum stream := by
  rw [State.sum, ocAdd_toNat, h.acc_toNat, fold_fold_add, ocSum]
  cases odd : s.odd with
  | false =>
    have even := h.pending.even_length odd
    rw [h.pending.hold_zero odd, padEven, if_neg (by omega)]
    rfl
  | true =>
    obtain ⟨front, split, even⟩ := h.pending.exists_front odd
    have padded : padEven stream = front ++ [s.hold, 0x00] := by
      rw [padEven, if_pos (h.pending.odd_iff.mp odd), split, List.append_assoc]
      rfl
    rw [padded, wordSum_append_word s.hold 0x00 even, split, wordSum_append_pending _ even]

/-- Rule R111: CSUM is 0xFFFF - SUM. -/
theorem State.csum_toNat (s : State) : s.csum.toNat = 0xFFFF - s.sum.toNat := by
  rw [State.csum, BitVec.toNat_not]

theorem AccumulatorOf.csum_toNat {stream : List Byte} {s : State} (h : AccumulatorOf stream s) :
    s.csum.toNat = checksum stream := by
  rw [State.csum_toNat, h.sum_toNat, checksum]

/-! ### Which commands are rejected, and the error flags along accepted commands -/

theorem rejected_of_error {c : Command} {r : Reserved} (h : decode c = .error r) :
    rejected c = true := by
  rw [rejected, h]

theorem rejected_of_nop {c : Command} {d : Data} (h : decode c = .ok (.nop d)) :
    rejected c = false := by
  rw [rejected, h]

theorem rejected_of_inRange {c : Command} {i : Instr} (h : decode c = .ok i)
    (fits : inRange (byteCount i) i.data = true) : rejected c = false := by
  rw [rejected, h]
  cases i with
  | nop d | clear d | add32 d => rfl
  | add8 d | add16 d | add24 d => exact congrArg (!·) fits

theorem rejected_of_tooWide {c : Command} {i : Instr} (h : decode c = .ok i)
    (notClear : ∀ d, i ≠ .clear d) (notNop : ∀ d, i ≠ .nop d)
    (tooWide : inRange (byteCount i) i.data = false) : rejected c = true := by
  rw [rejected, h]
  cases i with
  | nop d => exact absurd rfl (notNop d)
  | clear d => exact absurd rfl (notClear d)
  | add8 d | add16 d | add24 d => exact congrArg (!·) tooWide
  | add32 d => exact absurd (inRange_four d) (Bool.eq_false_iff.mp tooWide)

theorem ne_clear_of_isClear_eq_false {c : Command} {i : Instr} (notClear : isClear c = false)
    (h : decode c = .ok i) (d : Data) : i ≠ .clear d := by
  rintro rfl
  simp [isClear, cmd_of_decode_clear h] at notClear

/-- An error flag is set: the host takes no checksum (rules R52 and R136). -/
def State.errorSeen (s : State) : Bool := s.errIllegal || s.errRange

@[simp] theorem appendBytes_errorSeen (bs : List Byte) (s : State) :
    (appendBytes bs s).errorSeen = s.errorSeen := by
  simp [State.errorSeen]

@[simp] theorem reportIllegal_errorSeen (s : State) : (reportIllegal s).errorSeen = true := rfl

@[simp] theorem reportRange_errorSeen (s : State) : (reportRange s).errorSeen = true :=
  Bool.or_true _

@[simp] theorem resetEdge_errorSeen (s : State) : (resetEdge s).errorSeen = false := rfl

/-- A command other than CLEAR keeps a set error flag, and sets one exactly when the block rejects
it (rules R131, R132 and R135). -/
theorem errorSeen_of_accept {c : Command} {s t : State} (notClear : isClear c = false)
    (next : accept c s = .next t) : t.errorSeen = (s.errorSeen || rejected c) := by
  obtain ⟨i, decoded, executed⟩ | ⟨⟨r, reserved⟩, -, rfl⟩ := accept_cases next
  · have iNotClear := ne_clear_of_isClear_eq_false notClear decoded
    obtain ⟨⟨d, rfl⟩, -⟩ | ⟨-, -, ⟨fits, rfl⟩ | ⟨⟨d, rfl⟩, rfl⟩ | ⟨notNop, tooWide, rfl⟩⟩ :=
      exec_cases executed
    · exact absurd rfl (iNotClear d)
    · simp [rejected_of_inRange decoded fits]
    · simp [rejected_of_nop decoded]
    · simp [rejected_of_tooWide decoded iNotClear notNop tooWide]
  · simp [rejected_of_error reserved]

/-! ### Lists of commands -/

theorem acceptAll_cons_of_next {c : Command} {s t : State} (cs : List Command)
    (h : accept c s = .next t) : acceptAll (c :: cs) s = acceptAll cs t := by
  rw [acceptAll_cons, h, andThen]

/-- From a defined state all commands are accepted; a relation kept along the stream holds after
them, and if none of them is a CLEAR an error flag is set exactly when one was before or one of them
is rejected. -/
theorem KeptAlongStream.of_acceptAll {R : List Byte → State → Prop} (kept : KeptAlongStream R)
    (cs : List Command) {stream : List Byte} {s : State} (defined : s.defined = true)
    (h : R stream s) :
    ∃ t, acceptAll cs s = .next t ∧ t.defined = true ∧ R (streamAfterAll stream cs) t ∧
      ((∀ c ∈ cs, isClear c = false) → t.errorSeen = (s.errorSeen || cs.any rejected)) := by
  induction cs generalizing stream s with
  | nil => exact ⟨s, rfl, defined, h, fun _ => (Bool.or_false _).symm⟩
  | cons c cs ih =>
    obtain ⟨u, accepted⟩ := accept_next_of_defined c defined
    have stillDefined : u.defined = true :=
      keptAlongStream_defined.of_accept (stream := stream) defined accepted
    obtain ⟨t, run, tDefined, holds, flags⟩ := ih stillDefined (kept.of_accept h accepted)
    refine ⟨t, (acceptAll_cons_of_next cs accepted).trans run, tDefined, holds, fun noClear => ?_⟩
    obtain ⟨cNotClear, csNotClear⟩ := List.forall_mem_cons.mp noClear
    rw [flags csNotClear, errorSeen_of_accept cNotClear accepted, List.any_cons, Bool.or_assoc]

/-! ### The host's procedure -/

theorem hostRun_eq_acceptAll (cs : List Command) (s : State) :
    hostRun cs s = acceptAll cs (resetEdge s) := acceptAll_cons_of_next cs (accept_clear 0 s)

theorem hostChecksum_of_hostRun {cs : List Command} {s t : State} (run : hostRun cs s = .next t) :
    hostChecksum cs s = if t.errorSeen then none else some t.csum := by
  rw [hostChecksum, run]
  rfl

/-- From any state the host's run ends in a defined state that holds the stream of its commands, with
an error flag set exactly when one of them is rejected (rules R52 and R136). -/
theorem exists_hostRun (cs : List Command) (s : State) (noClear : ∀ c ∈ cs, isClear c = false) :
    ∃ t, hostRun cs s = .next t ∧ t.defined = true ∧ AccumulatorOf (streamAfterAll [] cs) t ∧
      t.errorSeen = cs.any rejected := by
  obtain ⟨t, run, defined, accumulated, flags⟩ :=
    keptAlongStream_accumulatorOf.of_acceptAll cs (s := resetEdge s) rfl
      (keptAlongStream_accumulatorOf.empty s)
  exact ⟨t, (hostRun_eq_acceptAll cs s).trans run, defined, accumulated, flags noClear⟩

/-- Settles O55: the run of `exists_hostRun`, with no error flag set in the first case and one in
the second. -/
theorem hostProcedureComputesTheChecksum : Obligations.HostProcedureComputesTheChecksum := by
  intro cs s noClear
  obtain ⟨t, run, defined, accumulated, flags⟩ := exists_hostRun cs s noClear
  have taken := hostChecksum_of_hostRun run
  constructor
  · intro noneRejected
    have noError : t.errorSeen = false := by rw [flags, List.any_eq_false]; simpa using noneRejected
    rw [noError] at taken
    exact ⟨t, run, ⟨defined, Bool.or_eq_false_iff.mp noError⟩, taken, accumulated.csum_toNat⟩
  · intro oneRejected
    have error : t.errorSeen = true := flags.trans (List.any_eq_true.mpr oneRejected)
    rw [error] at taken
    exact ⟨t, run, Bool.or_eq_true_iff.mp error, taken⟩

end Sys2Proof.Machine
end

section
/-! PROOF. What the host feeds for an item and for a message (rules R53 to R55): the bytes
appended, and that every command fed is accepted. -/

namespace Sys2Proof.Machine

/-! ### The bytes of DATA -/

theorem append_byte_toNat {w : Nat} (x : BitVec w) (b : Byte) :
    (x ++ b).toNat = x.toNat * 2 ^ 8 + b.toNat := by
  rw [BitVec.toNat_append, ← Nat.shiftLeft_add_eq_or_of_lt b.isLt, Nat.shiftLeft_eq]

theorem dataOfBytes_toNat (b3 b2 b1 b0 : Byte) : (dataOfBytes b3 b2 b1 b0).toNat =
    ((b3.toNat * 2 ^ 8 + b2.toNat) * 2 ^ 8 + b1.toNat) * 2 ^ 8 + b0.toNat := by
  simp only [dataOfBytes, append_byte_toNat]

theorem dataByte_toNat (i : Nat) (d : Data) :
    (dataByte i d).toNat = d.toNat / 2 ^ (8 * i) % 2 ^ 8 := by
  rw [dataByte, BitVec.extractLsb'_toNat, Nat.shiftRight_eq_div_pow]

/-- The bytes of a DATA built from four bytes, as a whole and from the low end. -/
theorem dataBytes_four_dataOfBytes (b3 b2 b1 b0 : Byte) :
    dataBytes 4 (dataOfBytes b3 b2 b1 b0) = [b3, b2, b1, b0] := by
  simp only [dataBytes, ← BitVec.toNat_inj, List.cons.injEq, dataByte_toNat, dataOfBytes_toNat,
    and_true]
  omega

theorem dataBytes_three_dataOfBytes (b3 b2 b1 b0 : Byte) :
    dataBytes 3 (dataOfBytes b3 b2 b1 b0) = [b2, b1, b0] :=
  (List.cons.inj (dataBytes_four_dataOfBytes b3 b2 b1 b0)).2

theorem dataBytes_two_dataOfBytes (b3 b2 b1 b0 : Byte) :
    dataBytes 2 (dataOfBytes b3 b2 b1 b0) = [b1, b0] :=
  (List.cons.inj (dataBytes_three_dataOfBytes b3 b2 b1 b0)).2

theorem dataBytes_one_dataOfBytes (b3 b2 b1 b0 : Byte) :
    dataBytes 1 (dataOfBytes b3 b2 b1 b0) = [b0] :=
  (List.cons.inj (dataBytes_two_dataOfBytes b3 b2 b1 b0)).2

/-- A byte and a word as DATA (rule R53) are built from their bytes. -/
theorem zeroExtend_byte (b : Byte) : b.zeroExtend 32 = dataOfBytes 0 0 0 b := by
  have h := b.isLt
  apply BitVec.eq_of_toNat_eq
  rw [dataOfBytes_toNat, BitVec.toNat_setWidth]
  simp only [BitVec.ofNat_eq_ofNat, BitVec.toNat_ofNat]
  omega

theorem zeroExtend_word (w : Word) :
    w.zeroExtend 32 = dataOfBytes 0 0 (w.extractLsb' 8 8) (w.extractLsb' 0 8) := by
  have h := w.isLt
  apply BitVec.eq_of_toNat_eq
  simp only [dataOfBytes_toNat, BitVec.toNat_setWidth, BitVec.extractLsb'_toNat,
    Nat.shiftRight_eq_div_pow]
  simp only [BitVec.ofNat_eq_ofNat, BitVec.toNat_ofNat]
  omega

/-- A ParameterProblem's 32-bit integer `pointer<<24 | unused` (rule R55, D16). -/
theorem pointer_or_unused (pointer : Byte) (unused : BitVec 24) :
    (pointer.zeroExtend 32 <<< 24) ||| unused.zeroExtend 32 =
      dataOfBytes pointer (unused.extractLsb' 16 8) (unused.extractLsb' 8 8)
        (unused.extractLsb' 0 8) := by
  have hp := pointer.isLt
  have hu := unused.isLt
  apply BitVec.eq_of_toNat_eq
  have shifted : (pointer.zeroExtend 32 <<< 24).toNat = pointer.toNat <<< 24 := by
    simp only [BitVec.toNat_shiftLeft, BitVec.toNat_setWidth, Nat.shiftLeft_eq]
    omega
  have widened : (unused.zeroExtend 32).toNat = unused.toNat := by
    rw [BitVec.toNat_setWidth]
    omega
  rw [BitVec.toNat_or, shifted, widened, ← Nat.shiftLeft_add_eq_or_of_lt hu, dataOfBytes_toNat,
    Nat.shiftLeft_eq]
  simp only [BitVec.extractLsb'_toNat, Nat.shiftRight_eq_div_pow]
  omega

theorem inRange_one_dataOfBytes (b0 : Byte) : inRange 1 (dataOfBytes 0 0 0 b0) = true := by
  have h0 := b0.isLt
  rw [inRange_iff, dataOfBytes_toNat]
  simp only [BitVec.ofNat_eq_ofNat, BitVec.toNat_ofNat]
  omega

theorem inRange_two_dataOfBytes (b1 b0 : Byte) : inRange 2 (dataOfBytes 0 0 b1 b0) = true := by
  have h1 := b1.isLt
  have h0 := b0.isLt
  rw [inRange_iff, dataOfBytes_toNat]
  simp only [BitVec.ofNat_eq_ofNat, BitVec.toNat_ofNat]
  omega

theorem inRange_three_dataOfBytes (b2 b1 b0 : Byte) :
    inRange 3 (dataOfBytes 0 b2 b1 b0) = true := by
  have h2 := b2.isLt
  have h1 := b1.isLt
  have h0 := b0.isLt
  rw [inRange_iff, dataOfBytes_toNat]
  simp only [BitVec.ofNat_eq_ofNat, BitVec.toNat_ofNat]
  omega

/-! ### Commands that append bytes -/

theorem decode_encode (i : Instr) : decode (encode i) = .ok i := by
  cases i with
  | nop d => exact decode_cmd_00 d
  | clear d => exact decode_cmd_01 d
  | add8 d => exact decode_cmd_10 d
  | add16 d => exact decode_cmd_11 d
  | add24 d => exact decode_cmd_12 d
  | add32 d => exact decode_cmd_13 d

theorem isClear_encode_of_ne_clear {i : Instr} (notClear : ∀ d, i ≠ .clear d) :
    isClear (encode i) = false := by
  cases i with
  | clear d => exact absurd rfl (notClear d)
  | nop d | add8 d | add16 d | add24 d | add32 d => rfl

/-- Commands that append `bytes` to every stream, each accepted and none a CLEAR. -/
structure Feeds (cs : List Command) (bytes : List Byte) : Prop where
  appends : ∀ stream, streamAfterAll stream cs = stream ++ bytes
  accepted : ∀ c ∈ cs, rejected c = false ∧ isClear c = false

theorem feeds_nil : Feeds [] [] := ⟨fun _ => (List.append_nil _).symm, by simp⟩

theorem Feeds.append {cs ds : List Command} {front back : List Byte} (h : Feeds cs front)
    (k : Feeds ds back) : Feeds (cs ++ ds) (front ++ back) where
  appends stream := by rw [streamAfterAll_append, h.appends, k.appends, List.append_assoc]
  accepted := List.forall_mem_append.mpr ⟨h.accepted, k.accepted⟩

/-- A command other than CLEAR with DATA in range appends its bytes (rule R92). -/
theorem feeds_encode (i : Instr) {bytes : List Byte} (notClear : ∀ d, i ≠ .clear d)
    (fits : inRange (byteCount i) i.data = true) (low : dataBytes (byteCount i) i.data = bytes) :
    Feeds [encode i] bytes where
  appends stream := by
    rw [streamAfterAll_cons, streamAfterAll_nil, streamAfter_ok stream (decode_encode i) notClear,
      appendedBytes_eq, if_pos fits, low]
  accepted := List.forall_mem_singleton.mpr
    ⟨rejected_of_inRange (decode_encode i) fits, isClear_encode_of_ne_clear notClear⟩

/-- Rule R69: the expansion of FEED appends exactly its bytes. -/
theorem feeds_feed (bytes : List Byte) : Feeds ((feed bytes).map encode) bytes := by
  induction bytes using feed.induct with
  | case1 => exact feeds_nil
  | case2 a =>
    exact feeds_encode (.add8 _) nofun (inRange_one_dataOfBytes a)
      (dataBytes_one_dataOfBytes 0 0 0 a)
  | case3 a b =>
    exact feeds_encode (.add16 _) nofun (inRange_two_dataOfBytes a b)
      (dataBytes_two_dataOfBytes 0 0 a b)
  | case4 a b c =>
    exact feeds_encode (.add24 _) nofun (inRange_three_dataOfBytes a b c)
      (dataBytes_three_dataOfBytes 0 a b c)
  | case5 a b c d rest ih =>
    exact (feeds_encode (.add32 _) nofun (inRange_four _)
      (dataBytes_four_dataOfBytes a b c d)).append ih

/-! ### Items and messages -/

/-- The bytes an item stands for: an UnsignedInt is big-endian (rules R43 and R53). -/
def Item.bytes : Item → List Byte
  | .unsignedInt w v => dataBytes (byteCount (addOfWidth w v)) v
  | .octetArray bytes => bytes
  | .restPayload bytes => bytes

/-- An UnsignedInt's value fits its width (rule R53). -/
def Item.Fits : Item → Prop
  | .unsignedInt w v => inRange (byteCount (addOfWidth w v)) v = true
  | .octetArray _ => True
  | .restPayload _ => True

@[simp] theorem addOfWidth_data (w : FieldWidth) (v : Data) : (addOfWidth w v).data = v := by
  cases w <;> rfl

theorem addOfWidth_ne_clear (w : FieldWidth) (v d : Data) : addOfWidth w v ≠ .clear d := by
  cases w <;> exact nofun

theorem feeds_item {i : Item} (fits : i.Fits) : Feeds i.commands i.bytes := by
  cases i with
  | unsignedInt w v =>
    exact feeds_encode (addOfWidth w v) (addOfWidth_ne_clear w v) (by rwa [addOfWidth_data])
      (by rw [addOfWidth_data, Item.bytes])
  | octetArray bytes | restPayload bytes => exact feeds_feed bytes

theorem feeds_items {is : List Item} (fit : ∀ i ∈ is, i.Fits) :
    Feeds (itemsCommands is) (is.flatMap Item.bytes) := by
  induction is with
  | nil => exact feeds_nil
  | cons i is ih =>
    obtain ⟨iFits, isFit⟩ := List.forall_mem_cons.mp fit
    exact (feeds_item iFits).append (ih isFit)

@[simp] theorem item8_fits (b : Byte) : (Item.unsignedInt .w8 (b.zeroExtend 32)).Fits := by
  rw [zeroExtend_byte]
  exact inRange_one_dataOfBytes b

@[simp] theorem item16_fits (w : Word) : (item16 w).Fits := by
  rw [item16, zeroExtend_word]
  exact inRange_two_dataOfBytes _ _

@[simp] theorem item32_fits (v : Data) : (Item.unsignedInt .w32 v).Fits := inRange_four v

@[simp] theorem restPayload_fits (bytes : List Byte) : (Item.restPayload bytes).Fits := trivial

@[simp] theorem item8_bytes (b : Byte) : (Item.unsignedInt .w8 (b.zeroExtend 32)).bytes = [b] := by
  rw [zeroExtend_byte]
  exact dataBytes_one_dataOfBytes 0 0 0 b

@[simp] theorem item16_bytes (w : Word) : (item16 w).bytes = IcmpBody.wireBytes.wordBytes w := by
  rw [item16, zeroExtend_word]
  exact dataBytes_two_dataOfBytes 0 0 _ _

@[simp] theorem item32_bytes (v : Data) : (Item.unsignedInt .w32 v).bytes = dataBytes 4 v := rfl

@[simp] theorem restPayload_bytes (bytes : List Byte) : (Item.restPayload bytes).bytes = bytes :=
  rfl

theorem bodyItems_fit (body : IcmpBody) : ∀ i ∈ body.items, i.Fits := by
  cases body <;> simp [IcmpBody.items]

/-- Rules R54 and R55: the variant's items stand for its wire bytes, for each of the 12 kinds. -/
theorem bodyItems_bytes (body : IcmpBody) : body.items.flatMap Item.bytes = body.wireBytes := by
  cases body with
  | raw => rfl
  | destinationUnreachable v | timeExceeded v | sourceQuench v =>
    exact List.append_nil _
  | redirect g0 g1 g2 g3 => exact dataBytes_four_dataOfBytes g0 g1 g2 g3
  | parameterProblem pointer unused =>
    rw [IcmpBody.items, pointer_or_unused]
    exact dataBytes_four_dataOfBytes pointer _ _ _
  | echoRequest id seq | echoReply id seq | informationRequest id seq | informationReply id seq =>
    simp [IcmpBody.items, IcmpBody.wireBytes]
  | timestamp id seq o r t | timestampReply id seq o r t =>
    simp [IcmpBody.items, IcmpBody.wireBytes]

theorem itemsWith_fit (m : IcmpMessage) (stored : Word) : ∀ i ∈ m.itemsWith stored, i.Fits := by
  simpa [IcmpMessage.itemsWith, or_imp, forall_and] using bodyItems_fit m.body

theorem itemsWith_bytes (m : IcmpMessage) (stored : Word) :
    (m.itemsWith stored).flatMap Item.bytes = ({ m with checksum := stored }).wireBytes := by
  simp [IcmpMessage.itemsWith, IcmpMessage.wireBytes, IcmpBody.wireBytes.wordBytes,
    bodyItems_bytes]

/-- Rule R55: a message fed with any word at its checksum position is fed as its wire layout with
that word. -/
theorem feeds_itemsWith (m : IcmpMessage) (stored : Word) :
    Feeds (itemsCommands (m.itemsWith stored)) ({ m with checksum := stored }).wireBytes :=
  itemsWith_bytes m stored ▸ feeds_items (itemsWith_fit m stored)

/-- Settles O56: `feeds_itemsWith` for the word 0 and for the stored checksum. -/
theorem pseudoBufferIsTheWireLayout : Obligations.PseudoBufferIsTheWireLayout := fun m =>
  ⟨(feeds_itemsWith m 0x0000).appends [], (feeds_itemsWith m m.checksum).appends [],
    (feeds_itemsWith m 0x0000).accepted⟩

end Sys2Proof.Machine
end

section
/-! PROOF. The decoder against the opcode map (rules R61 to R67): its clauses, the reserved classes,
and that it answers an instruction for exactly the command, and the table word, that encodes it. -/

namespace Sys2Proof

open Machine

/-! ### The fields of CMD -/

theorem op_eq_iff (c : Command) (k : BitVec 4) : c.op = k ↔ c.cmd.toNat / 16 = k.toNat := by
  have h := c.cmd.isLt
  rw [← BitVec.toNat_inj, Command.op, BitVec.extractLsb'_toNat, Nat.shiftRight_eq_div_pow]
  omega

theorem subres_eq_iff (c : Command) (k : BitVec 2) :
    c.subres = k ↔ c.cmd.toNat / 4 % 4 = k.toNat := by
  rw [← BitVec.toNat_inj, Command.subres, BitVec.extractLsb'_toNat, Nat.shiftRight_eq_div_pow]

/-- CMD names an ADD (rule R63). -/
def Command.IsAdd (c : Command) : Prop := c.op = 1 ∧ c.subres = 0

/-- The ADDs are the four values 0x10 to 0x13 (rule R62). -/
theorem isAdd_iff (c : Command) : c.IsAdd ↔ 0x10 ≤ c.cmd.toNat ∧ c.cmd.toNat ≤ 0x13 := by
  have op : c.op = 1 ↔ c.cmd.toNat / 16 = 1 := op_eq_iff c 1
  have subres : c.subres = 0 ↔ c.cmd.toNat / 4 % 4 = 0 := subres_eq_iff c 0
  rw [Command.IsAdd, op, subres]
  omega

/-! ### The clauses of decode -/

theorem decode_of_isAdd {c : Command} (isAdd : c.IsAdd) :
    decode c = .ok (addOfNm1 c.nm1 c.data) := by
  obtain ⟨low, -⟩ := (isAdd_iff c).mp isAdd
  have notNop : c.cmd ≠ 0x00 := fun h => by simp [h] at low
  have notClear : c.cmd ≠ 0x01 := fun h => by simp [h] at low
  rw [decode, if_neg notNop, if_neg notClear]
  exact if_pos isAdd

theorem decode_of_reserved {c : Command} (notNop : c.cmd ≠ 0x00) (notClear : c.cmd ≠ 0x01)
    (notAdd : ¬ c.IsAdd) : decode c = .error c.reservedClass := by
  rw [decode, if_neg notNop, if_neg notClear]
  exact if_neg notAdd

/-- Settles O2: one clause of `decode` each, the ADD clause at the four values of NM1. -/
theorem decodeIsTotalOnCmd : Obligations.DecodeIsTotalOnCmd := by
  rintro ⟨cmd, data⟩
  refine ⟨?nop, ?clear, fun op subres => ?add, fun notNop notClear notAdd =>
    ⟨_, decode_of_reserved notNop notClear notAdd⟩⟩
  case nop =>
    rintro rfl
    exact decode_cmd_00 data
  case clear =>
    rintro rfl
    exact decode_cmd_01 data
  case add =>
    have decoded : decode ⟨cmd, data⟩ = .ok (addOfNm1 (cmd.extractLsb' 0 2) data) :=
      decode_of_isAdd ⟨op, subres⟩
    rw [decoded]
    refine ⟨?_, ?_, ?_, ?_⟩ <;> intro nm1 <;> rw [nm1] <;> rfl

/-- Settles O1: the decoder's lemma of each CMD of the opcode map; reserved values are computed. -/
theorem decodeReadsTheOpcodeMap : Obligations.DecodeReadsTheOpcodeMap :=
  ⟨fun d => ⟨decode_cmd_00 d, decode_cmd_01 d, decode_cmd_10 d, decode_cmd_11 d,
    decode_cmd_12 d, decode_cmd_13 d⟩, rfl, rfl, rfl⟩

/-! ### The reserved classes -/

/-- A CMD value with no row in the opcode map (rules R62 and R66). -/
def isReservedCmd (v : Nat) : Bool := decide (0x02 ≤ v ∧ ¬(0x10 ≤ v ∧ v ≤ 0x13))

theorem isReservedCmd_iff (c : Command) : isReservedCmd c.cmd.toNat = true ↔
    c.cmd ≠ 0x00 ∧ c.cmd ≠ 0x01 ∧ ¬ c.IsAdd := by
  have nop : c.cmd = 0x00 ↔ c.cmd.toNat = 0 := BitVec.toNat_inj.symm
  have clear : c.cmd = 0x01 ↔ c.cmd.toNat = 1 := BitVec.toNat_inj.symm
  rw [isReservedCmd, decide_eq_true_iff, isAdd_iff, ne_eq, ne_eq, nop, clear]
  omega

/-- The decoder reports an error for exactly the reserved CMD values, with their class. -/
theorem decode_eq_error_iff (c : Command) (r : Reserved) : decode c = .error r ↔
    isReservedCmd c.cmd.toNat = true ∧ c.reservedClass = r := by
  rw [isReservedCmd_iff]
  constructor
  · intro h
    unfold decode at h
    split_ifs at h with isNop isClear isAdd
    exact ⟨⟨isNop, isClear, isAdd⟩, Except.error.inj h⟩
  · rintro ⟨⟨notNop, notClear, notAdd⟩, rfl⟩
    exact decode_of_reserved notNop notClear notAdd

/-- The CMD values of a reserved class (rule R66). -/
def Reserved.CmdRange : Reserved → Nat → Prop
  | .controlSub, v => 0x02 ≤ v ∧ v ≤ 0x0F
  | .addSubres, v => 0x14 ≤ v ∧ v ≤ 0x1F
  | .operationClass, v => 0x20 ≤ v

/-- The class is read from OP, which is CMD without its low four bits. -/
theorem decode_eq_error_iff_cmdRange (c : Command) (r : Reserved) :
    decode c = .error r ↔ r.CmdRange c.cmd.toNat := by
  have op0 : c.op = 0 ↔ c.cmd.toNat / 16 = 0 := op_eq_iff c 0
  have op1 : c.op = 1 ↔ c.cmd.toNat / 16 = 1 := op_eq_iff c 1
  rw [decode_eq_error_iff, isReservedCmd, decide_eq_true_iff]
  constructor
  · rintro ⟨reserved, rfl⟩
    unfold Command.reservedClass
    simp only [op0, op1]
    split_ifs <;> simp only [Reserved.CmdRange] <;> omega
  · cases r with
    | controlSub =>
      rintro ⟨low, high⟩
      exact ⟨by omega, if_pos (op0.mpr (by omega))⟩
    | addSubres =>
      rintro ⟨low, high⟩
      exact ⟨by omega, (if_neg (mt op0.mp (by omega))).trans (if_pos (op1.mpr (by omega)))⟩
    | operationClass =>
      intro low
      replace low : 0x20 ≤ c.cmd.toNat := low
      exact ⟨by omega, (if_neg (mt op0.mp (by omega))).trans (if_neg (mt op1.mp (by omega)))⟩

theorem toOption_decode_eq_none_iff (c : Command) :
    (decode c).toOption = none ↔ isReservedCmd c.cmd.toNat = true := by
  constructor
  · intro noInstr
    cases decoded : decode c with
    | ok i => simp [decoded, Except.toOption] at noInstr
    | error r => exact ((decode_eq_error_iff c r).mp decoded).1
  · intro reserved
    rw [(decode_eq_error_iff c _).mpr ⟨reserved, rfl⟩]
    rfl

/-- 14 of the 20 values below 0x14 are reserved, and all 236 others. -/
theorem count_isReservedCmd : ((List.range 256).filter isReservedCmd).length = 250 := by
  have others : ∀ v ∈ (List.range 236).map (20 + ·), isReservedCmd v = true :=
    List.forall_mem_map.mpr fun v _ => decide_eq_true (by omega)
  calc ((List.range (20 + 236)).filter isReservedCmd).length
      = ((List.range 20).filter isReservedCmd).length + 236 := by
        rw [List.range_add, List.filter_append, List.length_append, List.filter_eq_self.mpr others,
          List.length_map, List.length_range]
    _ = 250 := rfl

/-- With any DATA 250 of the 256 CMD values are reserved (rule R66). -/
theorem count_decode_isNone (d : Data) : ((List.range 256).filter
    (fun v => (decode ⟨BitVec.ofNat 8 v, d⟩).toOption.isNone)).length = 250 := by
  have same : ∀ v ∈ List.range 256,
      (decode ⟨BitVec.ofNat 8 v, d⟩).toOption.isNone = isReservedCmd v := fun v hv => by
    rw [Bool.eq_iff_iff, Option.isNone_iff_eq_none, toOption_decode_eq_none_iff, BitVec.toNat_ofNat,
      Nat.mod_eq_of_lt (List.mem_range.mp hv)]
  rw [List.filter_congr same, count_isReservedCmd]

/-- Rule R131: a reserved CMD sets ERR_ILLEGAL and nothing else. -/
theorem accept_of_toOption_eq_none {c : Command} {s : State} (reserved : (decode c).toOption = none)
    (defined : s.defined = true) : accept c s = .next { s with errIllegal := true } := by
  have decoded : decode c = .error c.reservedClass :=
    (decode_eq_error_iff c _).mpr ⟨(toOption_decode_eq_none_iff c).mp reserved, rfl⟩
  exact (accept_of_error s decoded).trans (whenDefined_of_defined _ defined)

/-- Settles O3: the range of each class, their number, and the effect of accepting one. -/
theorem reservedCommandsAreTheThreeClasses : Obligations.ReservedCommandsAreTheThreeClasses :=
  ⟨fun c => ⟨decode_eq_error_iff_cmdRange c .controlSub,
    decode_eq_error_iff_cmdRange c .addSubres, decode_eq_error_iff_cmdRange c .operationClass⟩,
    count_decode_isNone, fun _ _ => accept_of_toOption_eq_none⟩

/-! ### Decode and encode -/

theorem addOfNm1_data (n : BitVec 2) (d : Data) : (addOfNm1 n d).data = d := by
  unfold addOfNm1
  split_ifs <;> rfl

/-- An ADD's CMD is OP 1, SUBRES 00 and its NM1 (rule R61). -/
theorem addOfNm1_cmd (n : BitVec 2) (d : Data) :
    (addOfNm1 n d).cmd = (1 : BitVec 4) ++ (0 : BitVec 2) ++ n := by
  have values : n = 0 ∨ n = 1 ∨ n = 2 ∨ n = 3 := by revert n; decide
  obtain rfl | rfl | rfl | rfl := values <;> rfl

/-- CMD is its fields side by side: `{OP, SUBRES, NM1}` (rule R61). -/
theorem cmd_eq_fields (c : Command) : c.cmd = c.op ++ c.subres ++ c.nm1 := by
  rw [Command.op, Command.subres, Command.nm1]
  generalize c.cmd = v
  revert v
  decide

theorem cmd_of_isAdd {c : Command} (isAdd : c.IsAdd) :
    c.cmd = (1 : BitVec 4) ++ (0 : BitVec 2) ++ c.nm1 := by
  obtain ⟨op, subres⟩ := isAdd
  rw [← op, ← subres]
  exact cmd_eq_fields c

theorem eq_encode_of_decode {c : Command} {i : Instr} (h : decode c = .ok i) : c = encode i := by
  obtain ⟨cmd, data⟩ := c
  by_cases isNop : cmd = 0x00
  · subst isNop
    obtain rfl := Except.ok.inj ((decode_cmd_00 data).symm.trans h)
    rfl
  by_cases isClear : cmd = 0x01
  · subst isClear
    obtain rfl := Except.ok.inj ((decode_cmd_01 data).symm.trans h)
    rfl
  by_cases isAdd : (Command.mk cmd data).IsAdd
  · obtain rfl := Except.ok.inj ((decode_of_isAdd isAdd).symm.trans h)
    rw [encode, addOfNm1_cmd, addOfNm1_data, ← cmd_of_isAdd isAdd]
  · rw [decode_of_reserved isNop isClear isAdd] at h
    cases h

theorem decode_eq_ok_iff (c : Command) (i : Instr) : decode c = .ok i ↔ c = encode i :=
  ⟨eq_encode_of_decode, fun h => h ▸ decode_encode i⟩

/-! ### Table words (log 5) -/

theorem toTableWord_lt (c : Command) : c.toTableWord < 2 ^ 40 := by
  have hc := c.cmd.isLt
  have hd := c.data.isLt
  rw [Command.toTableWord]
  omega

theorem ofTableWord_toTableWord (c : Command) : Command.ofTableWord c.toTableWord = c := by
  obtain ⟨cmd, data⟩ := c
  have hc := cmd.isLt
  have hd := data.isLt
  simp only [Command.ofTableWord, Command.toTableWord, Command.mk.injEq, ← BitVec.toNat_inj,
    BitVec.toNat_ofNat]
  omega

theorem toTableWord_ofTableWord {w : Nat} (h : w < 2 ^ 40) :
    (Command.ofTableWord w).toTableWord = w := by
  simp only [Command.ofTableWord, Command.toTableWord, BitVec.toNat_ofNat]
  omega

/-- Below 2^40 a word and the command it stands for determine each other. -/
theorem ofTableWord_eq_iff {w : Nat} (c : Command) (h : w < 2 ^ 40) :
    Command.ofTableWord w = c ↔ w = c.toTableWord :=
  ⟨fun k => k ▸ (toTableWord_ofTableWord h).symm, fun k => k ▸ ofTableWord_toTableWord c⟩

theorem decodeTableWord_eq_some_iff (nbits w : Nat) (i : Instr) :
    decodeTableWord nbits w = some i ↔ decode (Command.ofTableWord (w % 2 ^ nbits)) = .ok i := by
  rw [decodeTableWord]
  cases decode (Command.ofTableWord (w % 2 ^ nbits)) <;> simp [Except.toOption]

/-- Settles O4: `decode_eq_ok_iff` on commands, carried over to table words. -/
theorem decodeAgreesWithEncode : Obligations.DecodeAgreesWithEncode := by
  refine ⟨decode_eq_ok_iff, fun w i h => ?_, fun i => toTableWord_lt (encode i)⟩
  rw [decodeTableWord_eq_some_iff, Nat.mod_eq_of_lt h, decode_eq_ok_iff, ofTableWord_eq_iff _ h]

end Sys2Proof
end

section
/-! PROOF. The step over a placed table word, and what an idle edge, NOP and CLEAR do not depend on
(rules R65, R68 and R154). -/

namespace Sys2Proof.Machine

theorem exec_nop_of_defined (d : Data) {s : State} (defined : s.defined = true) :
    exec (.nop d) s = .next s := whenDefined_of_defined s defined

theorem clockEdge_of_idle {p : PortSample} (s : State) (reset : p.rst = false)
    (idle : p.cmdValid = false) : clockEdge p s = .next s := by
  simp [clockEdge, reset, idle]

/-- Settles O6: a step takes the command presented first; `accept` runs what the decoder reads. -/
theorem stepRunsThePlacedTableWord : Obligations.StepRunsThePlacedTableWord := by
  intro nbits w i s decoded
  calc step (s.withFetchWord nbits w)
      = accept (Command.ofTableWord (w % 2 ^ nbits)) s := step_presented _ s.input s
    _ = exec i s := accept_of_ok s ((decodeTableWord_eq_some_iff nbits w i).mp decoded)

/-- Settles O10: the idle edge and NOP both leave the state as it is. -/
theorem idleEdgeChangesNothing : Obligations.IdleEdgeChangesNothing := fun _ s reset idle =>
  ⟨clockEdge_of_idle s reset idle, fun defined d =>
    (exec_nop_of_defined d defined).trans (clockEdge_of_idle s reset idle).symm⟩

/-- Settles O12: the next state of NOP and of CLEAR does not mention DATA. -/
theorem dataOfNopAndClearIsIgnored : Obligations.DataOfNopAndClearIsIgnored := fun d e s defined =>
  ⟨⟨s, exec_nop_of_defined d defined, exec_nop_of_defined e defined⟩,
    ⟨resetEdge s, exec_clear d s, exec_clear e s⟩⟩

end Sys2Proof.Machine
end

section
/-! PROOF. The assembler (rule R69): it emits well-formed commands, which the block does not reject,
and the expansion of FEED. -/

namespace Sys2Proof.Machine

/-! ### Well-formed commands -/

/-- DATA of a well-formed command is in the range of its width (rule R64). -/
theorem inRange_of_wellFormed {i : Instr} (h : i.wellFormed = true) :
    inRange (byteCount i) i.data = true := by
  cases i with
  | nop d | clear d =>
    obtain rfl : d = 0 := eq_of_beq h
    rfl
  | add8 d | add16 d | add24 d => exact h
  | add32 d => exact inRange_four d

theorem rejected_encode_of_wellFormed {i : Instr} (h : i.wellFormed = true) :
    rejected (encode i) = false :=
  rejected_of_inRange (decode_encode i) (inRange_of_wellFormed h)

/-! ### FEED -/

theorem feed_wellFormed (bytes : List Byte) : ∀ i ∈ feed bytes, i.wellFormed = true := by
  induction bytes using feed.induct with
  | case1 => exact List.forall_mem_nil _
  | case2 a => exact List.forall_mem_singleton.mpr (inRange_one_dataOfBytes a)
  | case3 a b => exact List.forall_mem_singleton.mpr (inRange_two_dataOfBytes a b)
  | case4 a b c => exact List.forall_mem_singleton.mpr (inRange_three_dataOfBytes a b c)
  | case5 a b c d rest ih => exact List.forall_mem_cons.mpr ⟨rfl, ih⟩

theorem feed_length (bytes : List Byte) : (feed bytes).length =
    bytes.length / 4 + (if bytes.length % 4 = 0 then 0 else 1) := by
  induction bytes using feed.induct with
  | case1 | case2 | case3 | case4 => simp [feed]
  | case5 a b c d rest ih =>
    rw [feed, List.length_cons, ih]
    simp only [List.length_cons, Nat.add_assoc, Nat.reduceAdd, Nat.add_mod_right]
    omega

/-- The full groups of four bytes come first, each as an ADD32. -/
theorem feed_take_add32 (bytes : List Byte) :
    ∀ i ∈ (feed bytes).take (bytes.length / 4), ∃ d, i = .add32 d := by
  induction bytes using feed.induct with
  | case1 | case2 | case3 | case4 => simp
  | case5 a b c d rest ih =>
    have groups : (a :: b :: c :: d :: rest).length / 4 = rest.length / 4 + 1 :=
      Nat.add_div_right rest.length (by decide : 0 < 4)
    rw [groups, feed, List.take_succ_cons]
    exact List.forall_mem_cons.mpr ⟨⟨_, rfl⟩, ih⟩

/-- Settles O53: the bytes by `feeds_feed`, the shape by induction on the groups of four bytes. -/
theorem feedAppendsExactlyItsBytes : Obligations.FeedAppendsExactlyItsBytes := fun bytes stream =>
  ⟨(feeds_feed bytes).appends stream,
    fun i hi => have wellFormed := feed_wellFormed bytes i hi
      ⟨wellFormed, rejected_encode_of_wellFormed wellFormed⟩,
    feed_length bytes, feed_take_add32 bytes⟩

/-! ### Assembler lines -/

theorem fitting_eq_none_iff (width imm : Nat) : fitting width imm = none ↔ 2 ^ width ≤ imm := by
  simp [fitting]

theorem toNat_lt_of_fitting {width imm : Nat} {d : Data} (h : fitting width imm = some d) :
    d.toNat < 2 ^ width := by
  obtain ⟨fits, rfl⟩ : imm < 2 ^ width ∧ BitVec.ofNat 32 imm = d := by simpa [fitting] using h
  rw [BitVec.toNat_ofNat]
  exact (Nat.mod_le _ _).trans_lt fits

/-- The commands encode well-formed instructions (rule R69). -/
def EncodeWellFormed (cs : List Command) : Prop :=
  ∀ c ∈ cs, ∃ i : Instr, c = encode i ∧ i.wellFormed = true

theorem encodeWellFormed_singleton {i : Instr} (h : i.wellFormed = true) :
    EncodeWellFormed [encode i] := List.forall_mem_singleton.mpr ⟨i, rfl, h⟩

theorem encodeWellFormed_feed (bytes : List Byte) :
    EncodeWellFormed ((feed bytes).map encode) :=
  List.forall_mem_map.mpr fun i hi => ⟨i, rfl, feed_wellFormed bytes i hi⟩

/-- An ADD line emits a well-formed ADD, if well-formed means that DATA fits the width. -/
theorem encodeWellFormed_of_fitting {width imm : Nat} {add : Data → Instr} {cs : List Command}
    (fits : ∀ d : Data, d.toNat < 2 ^ width → (add d).wellFormed = true)
    (h : (fitting width imm).map (fun d => [encode (add d)]) = some cs) : EncodeWellFormed cs := by
  obtain ⟨d, hd, rfl⟩ := Option.map_eq_some_iff.mp h
  exact encodeWellFormed_singleton (fits d (toNat_lt_of_fitting hd))

theorem encodeWellFormed_of_assemble {l : AsmLine} {cs : List Command}
    (notRaw : ∀ c d, l ≠ .raw c d) (h : assemble l = some cs) : EncodeWellFormed cs := by
  cases l with
  | nop | clear =>
    obtain rfl := Option.some.inj h
    exact encodeWellFormed_singleton rfl
  | add8 imm | add16 imm | add24 imm =>
    exact encodeWellFormed_of_fitting (fun _ => decide_eq_true) h
  | add32 imm => exact encodeWellFormed_of_fitting (fun _ _ => rfl) h
  | raw c d => exact absurd rfl (notRaw c d)
  | feed numbers =>
    rw [assemble] at h
    split_ifs at h
    obtain ⟨bytes, -, rfl⟩ := Option.map_eq_some_iff.mp h
    exact encodeWellFormed_feed bytes

theorem assemble_raw (c : Command) : assemble (.raw c.cmd.toNat c.data.toNat) = some [c] := by
  rw [assemble, if_pos ⟨c.cmd.isLt, c.data.isLt⟩, BitVec.ofNat_toNat, BitVec.ofNat_toNat,
    BitVec.setWidth_eq, BitVec.setWidth_eq]

/-- Settles O54: what a line emits is well-formed, so it is not rejected; each ADD line is refused
where `fitting` is; a raw pair is written back. -/
theorem assemblerRefusesWhatTheBlockRejects : Obligations.AssemblerRefusesWhatTheBlockRejects := by
  refine ⟨fun l cs notRaw assembled c hc => ?_, fun imm => ?_, assemble_raw⟩
  · obtain ⟨i, rfl, wellFormed⟩ := encodeWellFormed_of_assemble notRaw assembled c hc
    exact ⟨rejected_encode_of_wellFormed wellFormed, i, rfl, wellFormed⟩
  · simp only [assemble, Option.map_eq_none_iff, fitting_eq_none_iff, and_self]

end Sys2Proof.Machine
end

section
/-! PROOF. Steps and clock edges: a step uses up one command presented and does not change what all
the edges still to come will give, so a run of steps and the edges agree (rules R84 and R154; log 2). -/

namespace Sys2Proof.Machine

/-! ### Outcomes in sequence -/

theorem andThen_assoc {σ φ ρ : Type} (o : Host.Outcome σ φ ρ) (f g : σ → Host.Outcome σ φ ρ) :
    andThen (andThen o f) g = andThen o (fun t => andThen (f t) g) := by
  cases o <;> rfl

/-- Only what follows the next state reached matters. -/
theorem andThen_congr {σ φ ρ : Type} {o : Host.Outcome σ φ ρ} {f g : σ → Host.Outcome σ φ ρ}
    (h : ∀ t, o = .next t → f t = g t) : andThen o f = andThen o g := by
  cases o with
  | next t => exact h t rfl
  | fault r | refused r => rfl

theorem clockEdges_cons_eq_andThen (p : PortSample) (ps : List PortSample) (s : State) :
    clockEdges (p :: ps) s = andThen (clockEdge p s) (clockEdges ps) := by
  rw [clockEdges]
  cases clockEdge p s <;> rfl

/-! ### No edge is refused -/

theorem whenDefined_ne_refused (s t : State) (r : Refusal) : whenDefined s t ≠ .refused r := by
  cases defined : s.defined
  · simp [whenDefined_of_undefined t defined]
  · simp [whenDefined_of_defined t defined]

theorem exec_ne_refused (i : Instr) (s : State) (r : Refusal) : exec i s ≠ .refused r := by
  cases i with
  | clear d => simp [exec_clear]
  | nop d | add8 d | add16 d | add24 d | add32 d => exact whenDefined_ne_refused s _ r

theorem accept_ne_refused (c : Command) (s : State) (r : Refusal) : accept c s ≠ .refused r := by
  cases decoded : decode c with
  | ok i => rw [accept_of_ok s decoded]; exact exec_ne_refused i s r
  | error e => rw [accept_of_error s decoded]; exact whenDefined_ne_refused s _ r

theorem clockEdge_ne_refused (p : PortSample) (s : State) (r : Refusal) :
    clockEdge p s ≠ .refused r := by
  cases accepted : p.accepts
  · simp [clockEdge_of_quiet s accepted]
  · rw [clockEdge_of_accepts s accepted]; exact accept_ne_refused _ s r

/-- Only a step is ever refused: an edge has a meaning whatever the host drives (rule R154). -/
theorem clockEdges_ne_refused (ps : List PortSample) (s : State) (r : Refusal) :
    clockEdges ps s ≠ .refused r := by
  induction ps generalizing s with
  | nil => simp [clockEdges]
  | cons p ps ih =>
    rw [clockEdges_cons_eq_andThen]
    cases edge : clockEdge p s with
    | next t => exact ih t
    | fault e => simp [andThen]
    | refused e => exact absurd edge (clockEdge_ne_refused p s e)

/-! ### A step uses up one command -/

theorem accept_input {c : Command} {s t : State} (h : accept c s = .next t) :
    t.input = s.input := by
  have kept : accept c s = outcomeWithInput s.input (accept c s) := accept_withInput s.input c s
  rw [h] at kept
  have same : t = t.withInput s.input := Host.Outcome.next.inj kept
  calc t.input = (t.withInput s.input).input := congrArg State.input same
    _ = s.input := rfl

theorem advanceFrom_countP {ps : List PortSample} {s t : State} (h : advanceFrom ps s = .next t) :
    ps.countP PortSample.accepts = t.input.countP PortSample.accepts + 1 := by
  induction ps generalizing s with
  | nil => simp at h
  | cons p ps ih =>
    cases accepted : p.accepts
    · rw [advanceFrom_quiet ps s accepted] at h
      rw [List.countP_cons_of_neg (by simp [accepted]), ih h]
    · rw [advanceFrom_accepts ps s accepted] at h
      rw [List.countP_cons_of_pos accepted, accept_input h]

theorem runSteps_countP {k : Nat} {s t : State} (h : runSteps k s = .next t) :
    s.input.countP PortSample.accepts = t.input.countP PortSample.accepts + k := by
  induction k generalizing s with
  | zero => rw [Host.Outcome.next.inj h, Nat.add_zero]
  | succ k ih =>
    rw [runSteps_succ] at h
    cases stepped : step s with
    | next u =>
      have used := advanceFrom_countP stepped
      have rest := ih (s := u) (by simpa [stepped, andThen] using h)
      omega
    | fault r | refused r => simp [stepped, andThen] at h

/-- With no command left there is no step (rule R154; log 2). -/
theorem advanceFrom_of_no_command {ps : List PortSample} (s : State)
    (h : ∀ p ∈ ps, p.accepts = false) : advanceFrom ps s = .refused .noCommandPresented := by
  induction ps generalizing s with
  | nil => rfl
  | cons p ps ih =>
    obtain ⟨quiet, rest⟩ := List.forall_mem_cons.mp h
    rw [advanceFrom_quiet ps s quiet, ih _ rest]

theorem accepts_eq_false_iff (p : PortSample) :
    p.accepts = false ↔ p.rst = true ∨ p.cmdValid = false := by
  cases rst : p.rst <;> simp [PortSample.accepts, rst]

/-! ### A step does not change what all the edges to come will give -/

/-- What the edges of all the samples to come make of a state, the samples used up. -/
def edgesToCome (s : State) : Host.Outcome State Fault Refusal :=
  clockEdges s.input (s.withInput [])

/-- The edges a step passes and those it leaves are together all the edges. -/
theorem advanceFrom_edgesToCome {ps : List PortSample} (s : State)
    (h : 0 < ps.countP PortSample.accepts) :
    andThen (advanceFrom ps s) edgesToCome = clockEdges ps (s.withInput []) := by
  induction ps generalizing s with
  | nil => simp at h
  | cons p ps ih =>
    rw [clockEdges_cons_eq_andThen]
    cases accepted : p.accepts
    · rw [List.countP_cons_of_neg (by simp [accepted])] at h
      rw [advanceFrom_quiet ps s accepted, ih _ h, clockEdge_of_quiet _ accepted]
      cases p.rst <;> rfl
    · calc andThen (advanceFrom (p :: ps) s) edgesToCome
          = andThen (accept ⟨p.cmd, p.data⟩ (s.withInput ps)) edgesToCome :=
            congrArg (andThen · edgesToCome) (advanceFrom_accepts ps s accepted)
        _ = andThen (accept ⟨p.cmd, p.data⟩ s) (fun t => clockEdges ps (t.withInput [])) := by
            rw [accept_withInput, andThen_outcomeWithInput]; rfl
        _ = andThen (clockEdge p (s.withInput [])) (clockEdges ps) := by
            rw [clockEdge_of_accepts _ accepted, accept_withInput, andThen_outcomeWithInput]

theorem runSteps_edgesToCome {k : Nat} {s : State}
    (h : k ≤ s.input.countP PortSample.accepts) :
    andThen (runSteps k s) edgesToCome = edgesToCome s := by
  induction k generalizing s with
  | zero => rfl
  | succ k ih =>
    calc andThen (runSteps (k + 1) s) edgesToCome
        = andThen (step s) (fun t => andThen (runSteps k t) edgesToCome) := by
          rw [runSteps_succ, andThen_assoc]
      _ = andThen (step s) edgesToCome := andThen_congr fun t stepped => ih (by
          have used := advanceFrom_countP stepped
          omega)
      _ = edgesToCome s := advanceFrom_edgesToCome s (Nat.zero_lt_of_lt h)

/-! ### As many steps as commands -/

section AllCommands

variable {ps : List PortSample} {s : State}

/-- Whatever the run of steps ends in, the edges left lead from there to the outcome of all. -/
theorem clockEdges_of_runSteps {o : Host.Outcome State Fault Refusal}
    (run : runSteps (ps.countP PortSample.accepts) (s.withInput ps) = o) :
    clockEdges ps (s.withInput []) = andThen o edgesToCome :=
  run ▸ (runSteps_edgesToCome (s := s.withInput ps) le_rfl).symm

theorem no_command_left_of_runSteps {t : State}
    (run : runSteps (ps.countP PortSample.accepts) (s.withInput ps) = .next t) :
    ∀ q ∈ t.input, q.accepts = false := by
  have used : ps.countP PortSample.accepts =
      t.input.countP PortSample.accepts + ps.countP PortSample.accepts := runSteps_countP run
  simpa using List.countP_eq_zero.mp (Nat.right_eq_add.mp used)

end AllCommands

/-- Settles O51: the run uses up every command, and the edges agree with whatever it ends in; no
edge is refused, so it is not refused either. -/
theorem stepsRefineClockEdges : Obligations.StepsRefineClockEdges := by
  intro ps s
  rw [← List.countP_eq_length_filter]
  refine ⟨fun t run => ?_, fun r run => clockEdges_of_runSteps run,
    fun r run => clockEdges_ne_refused ps _ r (clockEdges_of_runSteps run)⟩
  have noneLeft := no_command_left_of_runSteps run
  exact ⟨fun q hq => (accepts_eq_false_iff q).mp (noneLeft q hq),
    advanceFrom_of_no_command t noneLeft, clockEdges_of_runSteps run⟩

end Sys2Proof.Machine
end

section
/-! PROOF. The control commands NOP and CLEAR (rules R80 and R81). -/

namespace Sys2Proof.Machine

/-- Settles O13: NOP answers the state it stands in, which shows the same outputs. -/
theorem nopChangesNothing : Obligations.NopChangesNothing :=
  ⟨fun d _ => ⟨decode_cmd_00 d, exec_nop_of_defined d⟩, _, exec_nop_of_defined _ rfl, rfl⟩

/-- The readout of an emptied state (rules R81, R110 and R111). -/
theorem sum_resetEdge (s : State) : (resetEdge s).sum = 0x0000 :=
  (by decide : State.reset.sum = 0x0000)

theorem csum_resetEdge (s : State) : (resetEdge s).csum = 0xFFFF :=
  (by decide : State.reset.csum = 0xFFFF)

/-- Settles O14: CLEAR answers the state of a reset edge, in that state again too. -/
theorem clearGivesResetState : Obligations.ClearGivesResetState :=
  ⟨fun d e s => ⟨decode_cmd_01 d, resetEdge s, exec_clear d s, rfl, rfl, rfl, rfl, rfl, rfl,
      exec_clear e (resetEdge s), sum_resetEdge s, csum_resetEdge s⟩,
    fun d stream => streamAfter_clear stream (decode_encode (.clear d)),
    rfl, State.reset, exec_clear 0 _, rfl, csum_resetEdge State.reset, by decide⟩

end Sys2Proof.Machine
end

section
/-! PROOF. One's-complement addition as an algebra (rules R98 and R100). -/

namespace Sys2Proof.Machine

/-! ### fold -/

/-- `fold` keeps the value modulo 0xFFFF (rule R98). -/
theorem fold_mod (x : Nat) : fold x % 0xFFFF = x % 0xFFFF := by
  rw [fold_closed_form]
  cases x with
  | zero => rfl
  | succ n => exact Nat.mod_add_mod n 65535 1

theorem fold_eq_zero_iff (x : Nat) : fold x = 0 ↔ x = 0 := by
  rw [fold_closed_form]
  cases x <;> simp

theorem toNat_eq_zero_iff {n : Nat} (x : BitVec n) : x.toNat = 0 ↔ x = 0 :=
  ⟨fun h => BitVec.eq_of_toNat_eq (h.trans BitVec.toNat_zero.symm), fun h => h ▸ BitVec.toNat_zero⟩

/-! ### (+) -/

theorem ocAdd_comm (a b : Word) : ocAdd a b = ocAdd b a := by
  rw [ocAdd, ocAdd, Nat.add_comm]

/-- Two additions fold the sum of three words once (rule R98). -/
theorem ocAdd_ocAdd_toNat (a b c : Word) :
    (ocAdd (ocAdd a b) c).toNat = fold (a.toNat + b.toNat + c.toNat) := by
  rw [ocAdd_toNat, ocAdd_toNat, fold_fold_add]

theorem ocAdd_right_comm (a b c : Word) : ocAdd (ocAdd a b) c = ocAdd (ocAdd a c) b := by
  apply BitVec.eq_of_toNat_eq
  rw [ocAdd_ocAdd_toNat, ocAdd_ocAdd_toNat, Nat.add_right_comm]

theorem ocAdd_assoc (a b c : Word) : ocAdd (ocAdd a b) c = ocAdd a (ocAdd b c) := by
  rw [ocAdd_comm a b, ocAdd_right_comm, ocAdd_comm]

theorem ocAdd_zero (a : Word) : ocAdd a 0x0000 = a :=
  BitVec.eq_of_toNat_eq ((ocAdd_toNat a 0x0000).trans (fold_of_le (Nat.le_of_lt_succ a.isLt)))

/-- 0xFFFF is a second zero beside every value but 0 (rule R100). -/
theorem ocAdd_ones {a : Word} (nonzero : a ≠ 0x0000) : ocAdd a 0xFFFF = a := by
  have positive : a.toNat ≠ 0 := fun h => nonzero ((toNat_eq_zero_iff a).mp h)
  have bound := a.isLt
  apply BitVec.eq_of_toNat_eq
  calc (ocAdd a 0xFFFF).toNat
      = fold (a.toNat + 0xFFFF) := ocAdd_toNat a 0xFFFF
    _ = (a.toNat + 0xFFFF) % 65536 + (a.toNat + 0xFFFF) / 65536 :=
        fold_of_le_two_words (by omega)
    _ = a.toNat := by omega

theorem zero_ocAdd (a : Word) : ocAdd 0x0000 a = a := (ocAdd_comm 0x0000 a).trans (ocAdd_zero a)

/-- A sum is 0 only where both operands are (rule R99). -/
theorem ocAdd_eq_zero_iff (a b : Word) : ocAdd a b = 0x0000 ↔ a = 0x0000 ∧ b = 0x0000 := by
  rw [← toNat_eq_zero_iff, ocAdd_toNat, fold_eq_zero_iff, Nat.add_eq_zero_iff, toNat_eq_zero_iff,
    toNat_eq_zero_iff]

/-- Settles O23: each law by its lemma on the numbers the words stand for. -/
theorem onesComplementAlgebra : Obligations.OnesComplementAlgebra := fun a b c =>
  ⟨ocAdd_comm a b, ocAdd_assoc a b c, ocAdd_assoc a b c ▸ ocAdd_ocAdd_toNat a b c, ocAdd_zero a,
    ocAdd_ones, zero_ocAdd 0xFFFF⟩

end Sys2Proof.Machine
end

section
/-! PROOF. ACC, HOLD and ODD along a run: they are the stream's, whatever its split (rules R97 and
R98), and ACC is zero only where every word is (rule R99). -/

namespace Sys2Proof.Machine

/-! ### ACC along a run from reset -/

/-- From reset every list of samples has its edges, and ACC, HOLD and ODD are the stream's. -/
theorem exists_run_from_reset (ps : List PortSample) :
    ∃ t, clockEdges ps State.reset = .next t ∧ AccumulatorOf (ps.foldl streamAfterEdge []) t := by
  obtain ⟨t, run, -, accumulated⟩ := keptAlongStream_accumulatorOf.of_clockEdges ps
    (s := State.reset) rfl (keptAlongStream_accumulatorOf.empty State.reset)
  exact ⟨t, run, accumulated⟩

/-- Settles O24: folding after each word absorbs into one fold (`fold_fold_add`), which
`AccumulatorOf` carries along every run. -/
theorem perWordFoldingEqualsFoldingAtTheEnd :
    Obligations.PerWordFoldingEqualsFoldingAtTheEnd := by
  refine ⟨fun x => ⟨fold_mod x, fold_le x, fold_eq_zero_iff x⟩, fold_fold_add, fun ps => ?_⟩
  obtain ⟨t, run, accumulated⟩ := exists_run_from_reset ps
  exact ⟨t, run, accumulated.acc_toNat⟩

/-! ### Split invariance -/

/-- The stream alone fixes ACC, HOLD and ODD (rules R21 to R23). -/
theorem AccumulatorOf.unique {stream : List Byte} {s t : State} (h : AccumulatorOf stream s)
    (k : AccumulatorOf stream t) : s.acc = t.acc ∧ s.hold = t.hold ∧ s.odd = t.odd := by
  have odd : s.odd = t.odd := Bool.eq_iff_iff.mpr (h.pending.odd_iff.trans k.pending.odd_iff.symm)
  refine ⟨BitVec.eq_of_toNat_eq (h.acc_toNat.trans k.acc_toNat.symm), ?_, odd⟩
  cases hs : s.odd with
  | false => rw [h.pending.hold_zero hs, k.pending.hold_zero (odd ▸ hs)]
  | true =>
    exact Option.some.inj ((h.pending.hold_last hs).symm.trans (k.pending.hold_last (odd ▸ hs)))

/-- The byte steps over a stream, from the reset state. -/
theorem accumulatorOf_byteSteps (stream : List Byte) :
    AccumulatorOf stream (stream.foldl byteStep State.reset) :=
  keptAlongStream_accumulatorOf.of_appendBytes stream
    (keptAlongStream_accumulatorOf.empty State.reset)

/-- Commands accepted where the stream is empty leave a state of the stream they append. -/
theorem exists_acceptAll_resetEdge (cs : List Command) (s : State) :
    ∃ t, acceptAll cs (resetEdge s) = .next t ∧ AccumulatorOf (streamAfterAll [] cs) t := by
  obtain ⟨t, run, -, accumulated, -⟩ := keptAlongStream_accumulatorOf.of_acceptAll cs
    (s := resetEdge s) rfl (keptAlongStream_accumulatorOf.empty s)
  exact ⟨t, run, accumulated⟩

/-- Settles O43: both runs and the byte steps end in states of one stream, which agree by
`AccumulatorOf.unique`. -/
theorem splitInvariance : Obligations.SplitInvariance := by
  intro cs ds s u sameStream
  obtain ⟨t, csRun, ofCs⟩ := exists_acceptAll_resetEdge cs s
  obtain ⟨v, dsRun, ofDs⟩ := exists_acceptAll_resetEdge ds u
  obtain ⟨w, resetRun, ofReset⟩ := exists_acceptAll_resetEdge ds State.reset
  rw [← sameStream] at ofDs ofReset
  obtain ⟨vAcc, vHold, vOdd⟩ := ofCs.unique ofDs
  obtain ⟨wAcc, wHold, wOdd⟩ := ofCs.unique ofReset
  exact ⟨t, v, w, (acceptAll_cons_of_next cs (accept_clear 0 s)).trans csRun,
    (acceptAll_cons_of_next ds (accept_clear 0 u)).trans dsRun, resetRun,
    vAcc, vHold, vOdd, wAcc, wHold, wOdd, ofCs.unique (accumulatorOf_byteSteps _)⟩

/-! ### When ACC is zero (rule R99) -/

/-- The words of a stream add up to 0 exactly when each of them is 0. -/
theorem wordSum_eq_zero_iff (bytes : List Byte) : wordSum bytes = 0 ↔
    ∀ k : Nat, 2 * k + 1 < bytes.length →
      bytes[2 * k]? = some 0x00 ∧ bytes[2 * k + 1]? = some 0x00 := by
  induction bytes using wordSum.induct with
  | case1 high low rest ih =>
    have firstWord : high.toNat * 256 + low.toNat = 0 ↔ high = 0x00 ∧ low = 0x00 := by
      rw [← toNat_eq_zero_iff, ← toNat_eq_zero_iff]
      omega
    rw [wordSum, Nat.add_eq_zero_iff, firstWord, ih]
    refine Iff.trans (and_congr ?_ (forall_congr' fun k => ?_)) Nat.and_forall_add_one
    · simp
    · have inside : 2 * k + 1 < rest.length ↔
          2 * (k + 1) + 1 < (high :: low :: rest).length := by
        rw [List.length_cons, List.length_cons]
        omega
      exact imp_congr inside Iff.rfl
  | case2 bytes short =>
    match bytes with
    | [] | [_] => simp [wordSum]
    | high :: low :: rest => exact absurd rfl (short high low rest)

theorem byteStep_acc_ne_zero {s : State} (b : Byte) (nonzero : s.acc ≠ 0x0000) :
    (byteStep s b).acc ≠ 0x0000 := by
  cases odd : s.odd with
  | false => rwa [byteStep_even b odd]
  | true =>
    rw [byteStep_odd b odd, completeWord_acc, Ne, ocAdd_eq_zero_iff]
    exact fun both => nonzero both.1

theorem appendBytes_acc_ne_zero (bs : List Byte) {s : State} (nonzero : s.acc ≠ 0x0000) :
    (appendBytes bs s).acc ≠ 0x0000 := by
  induction bs generalizing s with
  | nil => exact nonzero
  | cons b bs ih => exact ih (byteStep_acc_ne_zero b nonzero)

/-- A command other than CLEAR never brings ACC back to 0. -/
theorem acc_ne_zero_of_accept {c : Command} {s t : State} (next : accept c s = .next t)
    (notClear : c.cmd ≠ 0x01) (nonzero : s.acc ≠ 0x0000) : t.acc ≠ 0x0000 := by
  obtain ⟨i, decoded, executed⟩ | ⟨-, -, rfl⟩ := accept_cases next
  · obtain ⟨⟨d, rfl⟩, -⟩ | ⟨-, -, ⟨-, rfl⟩ | ⟨-, rfl⟩ | ⟨-, -, rfl⟩⟩ := exec_cases executed
    · exact absurd (cmd_of_decode_clear decoded) notClear
    · exact appendBytes_acc_ne_zero _ nonzero
    · exact nonzero
    · exact nonzero
  · exact nonzero

/-- Settles O45: ACC is the fold of the sum of the words, 0 only where the sum is; the byte steps keep
a non-zero ACC. -/
theorem accIsZeroOnlyForZeroWords : Obligations.AccIsZeroOnlyForZeroWords := by
  refine ⟨fun ps => ?_, fun p s t next noReset notClear nonzero => ?_⟩
  · obtain ⟨t, run, accumulated⟩ := exists_run_from_reset ps
    refine ⟨t, run, ?_⟩
    rw [← wordSum_eq_zero_iff, ← fold_eq_zero_iff, ← accumulated.acc_toNat]
    exact (toNat_eq_zero_iff t.acc).symm
  · obtain ⟨reset, -⟩ | ⟨-, valid, accepted⟩ | ⟨-, -, rfl⟩ := clockEdge_cases next
    · simp [noReset] at reset
    · exact acc_ne_zero_of_accept accepted (fun isClear => notClear ⟨valid, isClear⟩) nonzero
    · exact nonzero

end Sys2Proof.Machine
end

section
/-! PROOF. The accumulate commands (rules R90 to R96): the next state of each, with and without a
pending byte, and the order of whole words (rule R102). -/

namespace Sys2Proof.Machine

/-! ### The fields of DATA -/

/-- DATA has a bit set at or above bit `k` exactly when it is at least `2^k` (rule R64). -/
theorem two_pow_le_toNat_iff (k : Nat) {m : Nat} (width : k + m = 32) (d : Data) :
    2 ^ k ≤ d.toNat ↔ d.extractLsb' k m ≠ 0 := by
  have high : d.toNat / 2 ^ k < 2 ^ m := by
    rw [Nat.div_lt_iff_lt_mul (Nat.two_pow_pos k), ← Nat.pow_add, Nat.add_comm, width]
    exact d.isLt
  have field : (d.extractLsb' k m).toNat = d.toNat / 2 ^ k := by
    rw [BitVec.extractLsb'_toNat, Nat.shiftRight_eq_div_pow, Nat.mod_eq_of_lt high]
  rw [Ne, ← toNat_eq_zero_iff, field, Nat.div_eq_zero_iff_lt (Nat.two_pow_pos k), Nat.not_lt]

/-- Two neighbouring bytes of DATA are its 16-bit field. -/
theorem bytePair_dataByte (i : Nat) (d : Data) :
    bytePair (dataByte (i + 1) d) (dataByte i d) = d.extractLsb' (8 * i) 16 :=
  BitVec.extractLsb'_append_extractLsb'_eq_extractLsb' (by omega)

/-- The bytes of rule R92's loop, from `i = n - 1` down to 0. -/
theorem dataBytes_eq_map (n : Nat) (d : Data) :
    dataBytes n d = (List.range n).reverse.map (fun i => d.extractLsb' (8 * i) 8) := by
  induction n with
  | zero => rfl
  | succ n ih => simp [dataBytes, ih, List.range_succ, dataByte]

/-! ### The common ADD -/

theorem addCommand_of_lt (n : Nat) {d : Data} {s : State} (defined : s.defined = true)
    (fits : d.toNat < 2 ^ (8 * n)) :
    addCommand n d s = .next (appendBytes (dataBytes n d) s) := by
  rw [addCommand, whenDefined_of_defined _ defined, if_pos ((inRange_iff n d).mpr fits)]

theorem addCommand_of_le (n : Nat) {d : Data} {s : State} (defined : s.defined = true)
    (tooWide : 2 ^ (8 * n) ≤ d.toNat) : addCommand n d s = .next (reportRange s) := by
  have notInRange : ¬inRange n d = true := by rwa [inRange_iff, Nat.not_lt]
  rw [addCommand, whenDefined_of_defined _ defined, if_neg notInRange]

/-- An ADD is the common ADD of `NM1 + 1` bytes (rules R63 and R92). -/
theorem exec_addOfNm1 (n : BitVec 2) (d : Data) (s : State) :
    exec (addOfNm1 n d) s = addCommand (n.toNat + 1) d s := by
  have values : n = 0 ∨ n = 1 ∨ n = 2 ∨ n = 3 := by revert n; decide
  obtain rfl | rfl | rfl | rfl := values <;> rfl

/-- Settles O20: the command decodes to the common ADD of its NM1, in range or not. -/
theorem addIsItsByteSteps : Obligations.AddIsItsByteSteps := by
  intro c s op subres defined
  have accepted : accept c s = addCommand (c.nm1.toNat + 1) c.data s :=
    (accept_of_ok s (decode_of_isAdd ⟨op, subres⟩)).trans (exec_addOfNm1 c.nm1 c.data s)
  by_cases fits : c.data.toNat < 2 ^ (8 * (c.nm1.toNat + 1))
  · refine ⟨_, accepted.trans (addCommand_of_lt _ defined fits), appendBytes_errIllegal _ s,
      fun tooWide => absurd fits (Nat.not_lt.mpr tooWide), fun _ => ⟨?_, appendBytes_errRange _ s⟩⟩
    rw [dataBytes_eq_map]
    rfl
  · exact ⟨_, accepted.trans (addCommand_of_le _ defined (Nat.not_lt.mp fits)), rfl,
      fun _ => rfl, fun isLt => absurd isLt fits⟩

/-! ### Byte steps as whole words -/

/-- A whole word is added and no byte is pending after it (rule R90): what two byte steps with none
pending, or one that completes a word, come to. -/
def addWord (s : State) (w : Word) : State :=
  { s with acc := ocAdd s.acc w, hold := 0x00, odd := false }

theorem addWord_acc (s : State) (w : Word) : (addWord s w).acc = ocAdd s.acc w := rfl

theorem completeWord_eq_addWord (b : Byte) (s : State) :
    completeWord b s = addWord s (bytePair s.hold b) := rfl

/-- With no byte pending two bytes are a word. -/
theorem appendBytes_word {s : State} (high low : Byte) (bs : List Byte) (even : s.odd = false) :
    appendBytes (high :: low :: bs) s = appendBytes bs (addWord s (bytePair high low)) := by
  rw [appendBytes_cons, appendBytes_cons, byteStep_even high even, byteStep_odd low rfl]
  rfl

/-- With a byte pending the first byte completes its word. -/
theorem appendBytes_completing {s : State} (b : Byte) (bs : List Byte) (odd : s.odd = true) :
    appendBytes (b :: bs) s = appendBytes bs (addWord s (bytePair s.hold b)) := by
  rw [appendBytes_cons, byteStep_odd b odd, completeWord_eq_addWord]

theorem appendBytes_last {s : State} (b : Byte) (even : s.odd = false) :
    appendBytes [b] s = holdByte b s := byteStep_even b even

/-- Settles O19: the two halves of the byte step; the completed word as a number. -/
theorem byteStepHoldsOrCompletesAWord : Obligations.ByteStepHoldsOrCompletesAWord := by
  refine fun s b => ⟨byteStep_even b, fun odd => ?_⟩
  rw [byteStep_odd b odd, ← bytePair_toNat]
  rfl

/-! ### ADD8 -/

theorem exec_add8_even {d : Data} {s : State} (defined : s.defined = true)
    (fits : d.toNat < 2 ^ 8) (even : s.odd = false) :
    exec (.add8 d) s = .next (holdByte (dataByte 0 d) s) :=
  (addCommand_of_lt 1 defined fits).trans (congrArg _ (appendBytes_last _ even))

theorem exec_add8_odd {d : Data} {s : State} (defined : s.defined = true)
    (fits : d.toNat < 2 ^ 8) (odd : s.odd = true) :
    exec (.add8 d) s = .next (addWord s (bytePair s.hold (dataByte 0 d))) :=
  (addCommand_of_lt 1 defined fits).trans (congrArg _ (appendBytes_completing _ [] odd))

/-- Where no byte is pending HOLD is already the zero that SUM pads with. -/
theorem sum_holdByte_zero {s : State} (holdZero : s.hold = 0x00) :
    (holdByte 0x00 s).sum = s.sum := by
  rw [State.sum, State.sum, holdByte_acc, holdByte_hold, holdZero]

/-- Settles O15: the byte is held or completes a word; a held zero byte flips ODD only. -/
theorem add8AppendsOneByte : Obligations.Add8AppendsOneByte := by
  refine ⟨fun d s defined => ⟨decode_cmd_10 d, two_pow_le_toNat_iff 8 rfl d,
    fun fits even => ⟨exec_add8_even defined fits even, rfl⟩, exec_add8_odd defined,
    addCommand_of_le 1 defined⟩, fun s defined inv even => ?zeroByte, ?sample⟩
  case zeroByte =>
    refine ⟨holdByte 0x00 s, exec_add8_even defined (by decide) even, rfl, ?_,
      sum_holdByte_zero (inv defined even)⟩
    rw [status_odd, status_odd, holdByte_odd, even]
    decide
  case sample => exact ⟨_, exec_add8_even rfl (by decide) rfl, by decide⟩

/-! ### ADD16 -/

theorem exec_add16_even {d : Data} {s : State} (defined : s.defined = true)
    (fits : d.toNat < 2 ^ 16) (even : s.odd = false) :
    exec (.add16 d) s = .next (addWord s (d.extractLsb' 0 16)) := by
  rw [← bytePair_dataByte 0 d]
  exact (addCommand_of_lt 2 defined fits).trans (congrArg _ (appendBytes_word _ _ [] even))

theorem exec_add16_odd {d : Data} {s : State} (defined : s.defined = true)
    (fits : d.toNat < 2 ^ 16) (odd : s.odd = true) : exec (.add16 d) s =
      .next (holdByte (dataByte 0 d) (addWord s (bytePair s.hold (dataByte 1 d)))) :=
  (addCommand_of_lt 2 defined fits).trans
    (congrArg _ ((appendBytes_completing _ _ odd).trans (appendBytes_last _ rfl)))

/-- Settles O16: the next state by the pending byte; the corner cases are the laws of `(+)` at 0x0000
and 0xFFFF. -/
theorem add16AppendsTwoBytes : Obligations.Add16AppendsTwoBytes := by
  refine ⟨fun d s defined => ⟨decode_cmd_11 d, two_pow_le_toNat_iff 16 rfl d,
    exec_add16_even defined, exec_add16_odd defined, addCommand_of_le 2 defined⟩,
    fun s defined even => ?corners, ⟨_, rfl, by decide⟩, ⟨_, rfl, by decide⟩,
    _, exec_add16_odd rfl (by decide) rfl, by decide⟩
  case corners =>
    have zeros := exec_add16_even (d := 0x0000) defined (by decide) even
    have ones := exec_add16_even (d := 0xFFFF) defined (by decide) even
    refine ⟨fun accZero => ⟨_, zeros, ?_⟩, fun accZero => ⟨_, ones, ?_⟩,
      fun nonzero => ⟨_, ones, ocAdd_ones nonzero⟩⟩
    · exact (ocAdd_zero s.acc).trans accZero
    · rw [addWord_acc, accZero]
      exact zero_ocAdd 0xFFFF

/-! ### ADD24 -/

theorem exec_add24_even {d : Data} {s : State} (defined : s.defined = true)
    (fits : d.toNat < 2 ^ 24) (even : s.odd = false) : exec (.add24 d) s =
      .next (holdByte (dataByte 0 d) (addWord s (bytePair (dataByte 2 d) (dataByte 1 d)))) :=
  (addCommand_of_lt 3 defined fits).trans
    (congrArg _ ((appendBytes_word _ _ _ even).trans (appendBytes_last _ rfl)))

theorem exec_add24_odd {d : Data} {s : State} (defined : s.defined = true)
    (fits : d.toNat < 2 ^ 24) (odd : s.odd = true) : exec (.add24 d) s =
      .next (addWord (addWord s (bytePair s.hold (dataByte 2 d)))
        (bytePair (dataByte 1 d) (dataByte 0 d))) :=
  (addCommand_of_lt 3 defined fits).trans
    (congrArg _ ((appendBytes_completing _ _ odd).trans (appendBytes_word _ _ [] rfl)))

/-- Settles O17: the next state by the pending byte; the example by computing both command lists. -/
theorem add24AppendsThreeBytes : Obligations.Add24AppendsThreeBytes :=
  ⟨fun d _ defined => ⟨decode_cmd_12 d, two_pow_le_toNat_iff 24 rfl d,
    exec_add24_even defined, exec_add24_odd defined, addCommand_of_le 3 defined⟩,
    { State.reset with acc := 0xABCD, hold := 0xEF, odd := true }, rfl, rfl, rfl, rfl, rfl⟩

/-! ### ADD32 -/

theorem exec_add32_even (d : Data) {s : State} (defined : s.defined = true)
    (even : s.odd = false) : exec (.add32 d) s =
      .next (addWord (addWord s (d.extractLsb' 16 16)) (d.extractLsb' 0 16)) := by
  rw [← bytePair_dataByte 2 d, ← bytePair_dataByte 0 d]
  exact (addCommand_of_lt 4 defined d.isLt).trans
    (congrArg _ ((appendBytes_word _ _ _ even).trans (appendBytes_word _ _ [] rfl)))

theorem exec_add32_odd (d : Data) {s : State} (defined : s.defined = true)
    (odd : s.odd = true) : exec (.add32 d) s =
      .next (holdByte (dataByte 0 d) (addWord (addWord s (bytePair s.hold (dataByte 3 d)))
        (bytePair (dataByte 2 d) (dataByte 1 d)))) :=
  (addCommand_of_lt 4 defined d.isLt).trans (congrArg _ ((appendBytes_completing _ _ odd).trans
    ((appendBytes_word _ _ _ rfl).trans (appendBytes_last _ rfl))))

/-- Settles O18: the next state by the pending byte; every DATA fits. -/
theorem add32AppendsFourBytes : Obligations.Add32AppendsFourBytes :=
  ⟨fun d _ defined => ⟨decode_cmd_13 d, exec_add32_even d defined, exec_add32_odd d defined⟩,
    ⟨_, exec_add32_even _ rfl rfl, by decide⟩, _, exec_add32_odd _ rfl rfl, by decide⟩

/-! ### Whole words in any order (rule R102) -/

/-- An ADD16 of a word, where no byte is pending. -/
theorem accept_add16_word {s : State} (w : Word) (defined : s.defined = true)
    (even : s.odd = false) : accept ⟨0x11, w.zeroExtend 32⟩ s = .next (addWord s w) := by
  have fits : (w.zeroExtend 32).toNat < 2 ^ 16 := by
    rw [BitVec.toNat_setWidth, Nat.mod_eq_of_lt (by omega)]
    exact w.isLt
  have low : (w.zeroExtend 32).extractLsb' 0 16 = w := by
    apply BitVec.eq_of_toNat_eq
    rw [BitVec.extractLsb'_toNat, BitVec.toNat_setWidth, Nat.shiftRight_zero]
    omega
  calc accept ⟨0x11, w.zeroExtend 32⟩ s
      = exec (.add16 (w.zeroExtend 32)) s := accept_of_ok s (decode_cmd_11 _)
    _ = .next (addWord s w) := by rw [exec_add16_even defined fits even, low]

theorem acceptAll_add16_words (ws : List Word) {s : State} (defined : s.defined = true)
    (even : s.odd = false) :
    acceptAll (ws.map fun w => ⟨0x11, w.zeroExtend 32⟩) s = .next (ws.foldl addWord s) := by
  induction ws generalizing s with
  | nil => rfl
  | cons w ws ih =>
    rw [List.map_cons, acceptAll_cons_of_next _ (accept_add16_word w defined even),
      ih (s := addWord s w) defined rfl, List.foldl_cons]

theorem addWord_right_comm (s : State) (v w : Word) :
    addWord (addWord s v) w = addWord (addWord s w) v := by
  simp only [addWord, ocAdd_right_comm s.acc v w]

/-- Settles O46: a list of words is a left fold of `addWord`, which commutes with itself. -/
theorem wordOrderDoesNotMatterByteOrderDoes :
    Obligations.WordOrderDoesNotMatterByteOrderDoes := by
  refine ⟨fun ws vs perm => ⟨_, acceptAll_add16_words ws rfl rfl, ?_⟩,
    ⟨_, rfl, by decide⟩, ⟨_, rfl, by decide⟩⟩
  rw [acceptAll_add16_words vs rfl rfl,
    perm.foldl_eq' (fun v _ w _ s => addWord_right_comm s v w)]

end Sys2Proof.Machine
end

section
/-! PROOF. The readout of a state (rules R110 to R113, R119): SUM, CSUM and ZERO against each other and
against ACC, whatever the error flags are. -/

namespace Sys2Proof.Machine

/-! ### SUM, CSUM and ZERO -/

/-- SUM pads the pending byte with a zero byte (rule R110). -/
theorem State.sum_toNat (s : State) : s.sum.toNat = fold (s.acc.toNat + s.hold.toNat <<< 8) := by
  simp [State.sum, ocAdd_toNat, bytePair_toNat, Nat.shiftLeft_eq]

theorem State.sum_of_hold_zero {s : State} (holdZero : s.hold = 0x00) : s.sum = s.acc := by
  rw [State.sum, holdZero]
  exact ocAdd_zero s.acc

/-- Settles O30: with no byte pending the invariant makes HOLD zero, and SUM adds zero. -/
theorem sumPadsThePendingByte : Obligations.SumPadsThePendingByte := fun s =>
  ⟨s.sum_toNat, fun defined inv even => State.sum_of_hold_zero (inv defined even)⟩

/-- Settles O31: the complement of a word. -/
theorem csumIsTheComplementOfSum : Obligations.CsumIsTheComplementOfSum := State.csum_toNat

theorem State.csum_eq_zero_iff (s : State) : s.csum = 0x0000 ↔ s.sum = 0xFFFF :=
  BitVec.not_eq_comm

theorem State.csum_eq_ones_iff (s : State) : s.csum = 0xFFFF ↔ s.sum = 0x0000 :=
  BitVec.not_eq_comm

theorem State.zero_iff (s : State) : s.zero = true ↔ s.csum = 0x0000 := beq_iff_eq

/-- Settles O32: ZERO compares CSUM with 0, and CSUM is the complement of SUM. -/
theorem zeroTellsSumIsAllOnes : Obligations.ZeroTellsSumIsAllOnes :=
  ⟨fun s => ⟨s.zero_iff, s.csum_eq_zero_iff, status_zero s⟩, by decide,
    sum_resetEdge State.reset⟩

/-! ### The error flags -/

/-- Two states that differ in the error flags only have the same STATUS but for bits 2 and 3
(rules R30 and R113). -/
theorem status_getLsbD_of_errors (s : State) (illegal range : Bool) {k : Nat} (notIllegal : k ≠ 2)
    (notRange : k ≠ 3) :
    (State.status { s with errIllegal := illegal, errRange := range }).getLsbD k =
      s.status.getLsbD k := by
  rw [status_getLsbD, status_getLsbD, if_neg notIllegal, if_neg notIllegal, if_neg notRange,
    if_neg notRange]
  rfl

/-- Settles O34: SUM and CSUM read ACC and HOLD alone; STATUS bit by bit. -/
theorem outputsIgnoreTheErrorFlags : Obligations.OutputsIgnoreTheErrorFlags :=
  fun s illegal range => ⟨rfl, rfl, rfl, rfl,
    fun _ notIllegal notRange => status_getLsbD_of_errors s illegal range notIllegal notRange,
    fun defined inv even => (State.sum_of_hold_zero (inv defined even)).symm⟩

/-! ### Testing ZERO or comparing checksums (rule R119) -/

/-- A sum is 0xFFFF where the second word complements the first, and in one case more. -/
theorem ocAdd_eq_ones_iff (s c : Word) :
    ocAdd s c = 0xFFFF ↔ ~~~s = c ∨ (s = 0xFFFF ∧ c = 0xFFFF) := by
  have hs := s.isLt
  have hc := c.isLt
  have folded := (ocAdd_toNat s c).trans (fold_of_le_two_words (toNat_add_toNat_le s c))
  simp only [← BitVec.toNat_inj, folded, BitVec.toNat_not, BitVec.ofNat_eq_ofNat,
    BitVec.toNat_ofNat]
  omega

theorem not_ones_ne_ones : ~~~(0xFFFF : Word) ≠ 0xFFFF := by decide

/-- The two tests of rule R119 disagree only where the sum and the stored checksum are 0xFFFF. -/
theorem zeroTest_iff_comparison_iff (s c : Word) :
    (ocAdd s c = 0xFFFF ↔ ~~~s = c) ↔ ¬(s = 0xFFFF ∧ c = 0xFFFF) := by
  rw [ocAdd_eq_ones_iff, or_iff_left_iff_imp]
  refine ⟨fun agree ones => ?_, fun notOnes ones => absurd ones notOnes⟩
  obtain ⟨rfl, rfl⟩ := ones
  exact not_ones_ne_ones (agree ⟨rfl, rfl⟩)

end Sys2Proof.Machine
end

section
/-! PROOF. The reference function of rule R12 on a padded buffer, on a buffer of zeros and on a buffer
with one word exchanged, and what the block shows for them (rules R114 to R118). -/

namespace Sys2Proof.Machine

/-! ### The block computes the reference function (rule R114) -/

/-- From the state of a reset edge every list of samples has its edges, and ACC, HOLD and ODD are the
stream's. -/
theorem exists_run_from_resetEdge (ps : List PortSample) (s : State) :
    ∃ t, clockEdges ps (resetEdge s) = .next t ∧
      AccumulatorOf (ps.foldl streamAfterEdge []) t := by
  obtain ⟨t, run, -, accumulated⟩ := keptAlongStream_accumulatorOf.of_clockEdges ps
    (s := resetEdge s) rfl (keptAlongStream_accumulatorOf.empty s)
  exact ⟨t, run, accumulated⟩

theorem clockEdge_clear (d : Data) (s : State) :
    clockEdge ⟨false, true, 0x01, d⟩ s = .next (resetEdge s) :=
  (clockEdge_of_accepts s rfl).trans (accept_clear d s)

/-- Settles O44: a CLEAR leaves the state of a reset edge, and `AccumulatorOf` is kept from there. -/
theorem outputsAreTheChecksumOfTheStream : Obligations.OutputsAreTheChecksumOfTheStream := by
  refine fun ps => ⟨?_, fun d s => ?_⟩
  · obtain ⟨t, run, accumulated⟩ := exists_run_from_reset ps
    exact ⟨t, run, accumulated.sum_toNat, accumulated.csum_toNat⟩
  · obtain ⟨t, run, accumulated⟩ := exists_run_from_resetEdge ps s
    exact ⟨t, (clockEdges_cons ps (clockEdge_clear d s)).trans run, accumulated.sum_toNat,
      accumulated.csum_toNat⟩

/-! ### Padding (rule R115) -/

theorem padEven_of_even {bytes : List Byte} (even : bytes.length % 2 = 0) :
    padEven bytes = bytes := if_neg (by omega)

theorem padEven_of_odd {bytes : List Byte} (odd : bytes.length % 2 = 1) :
    padEven bytes = bytes ++ [0x00] := if_pos odd

/-- Whole words in front do not change the padding. -/
theorem padEven_append {front : List Byte} (back : List Byte) (even : front.length % 2 = 0) :
    padEven (front ++ back) = front ++ padEven back := by
  have parity : (front ++ back).length % 2 = back.length % 2 := by
    rw [List.length_append]
    omega
  obtain backEven | backOdd := Nat.mod_two_eq_zero_or_one back.length
  · rw [padEven_of_even (parity.trans backEven), padEven_of_even backEven]
  · rw [padEven_of_odd (parity.trans backOdd), padEven_of_odd backOdd, List.append_assoc]

theorem padEven_append_zero {bytes : List Byte} (odd : bytes.length % 2 = 1) :
    padEven (bytes ++ [0x00]) = padEven bytes := by
  have even : (bytes ++ [0x00]).length % 2 = 0 := by
    rw [List.length_append, List.length_singleton]
    omega
  rw [padEven_of_even even, padEven_of_odd odd]

/-- Settles O47: an ADD8 of 0x00 completes the word that SUM pads, so ACC becomes SUM with no byte
pending. -/
theorem zeroPadEquivalence : Obligations.ZeroPadEquivalence := by
  refine ⟨fun bytes odd => ?_, fun s defined odd => ?_⟩
  · rw [checksum, checksum, ocSum, ocSum, padEven_append_zero odd]
  · have sameSum : (addWord s (bytePair s.hold 0x00)).sum = s.sum := State.sum_of_hold_zero rfl
    refine ⟨_, exec_add8_odd defined (by decide) odd, sameSum, congrArg (~~~·) sameSum, rfl, rfl,
      rfl, fun sameStatus => ?_⟩
    have sameOdd := congrArg (·.getLsbD 0) sameStatus
    simp only [status_odd, odd] at sameOdd
    exact Bool.false_ne_true sameOdd

/-! ### Buffers of zeros (rules R117 and R118) -/

/-- The padded words add up to 0 exactly when every byte is zero. -/
theorem wordSum_padEven_eq_zero_iff (bytes : List Byte) :
    wordSum (padEven bytes) = 0 ↔ ∀ b ∈ bytes, b = 0x00 := by
  induction bytes using wordSum.induct with
  | case1 high low rest ih =>
    have split : padEven (high :: low :: rest) = high :: low :: padEven rest :=
      padEven_append (front := [high, low]) rest (Nat.mod_self 2)
    simp [split, wordSum, ih, toNat_eq_zero_iff, and_assoc]
  | case2 bytes short =>
    match bytes with
    | [] => simp [padEven, wordSum]
    | [b] => simp [padEven, wordSum, toNat_eq_zero_iff]
    | high :: low :: rest => exact absurd rfl (short high low rest)

theorem ocSum_eq_zero_iff (bytes : List Byte) : ocSum bytes = 0 ↔ ∀ b ∈ bytes, b = 0x00 := by
  rw [ocSum, fold_eq_zero_iff, wordSum_padEven_eq_zero_iff]

theorem AccumulatorOf.sum_eq_zero_iff {stream : List Byte} {s : State}
    (h : AccumulatorOf stream s) : s.sum = 0x0000 ↔ ∀ b ∈ stream, b = 0x00 := by
  rw [← toNat_eq_zero_iff, h.sum_toNat, ocSum_eq_zero_iff]

/-- Settles O49: SUM is 0 only for a stream of zeros; CSUM is its complement. -/
theorem distinguishedChecksumValues : Obligations.DistinguishedChecksumValues := by
  intro ps
  obtain ⟨t, run, accumulated⟩ := exists_run_from_reset ps
  refine ⟨t, run, t.csum_eq_ones_iff, accumulated.sum_eq_zero_iff, t.csum_eq_zero_iff,
    fun notOnes => ?_⟩
  rw [Ne, t.csum_eq_ones_iff, accumulated.sum_eq_zero_iff] at notOnes
  simpa using notOnes

/-! ### One word of a buffer (rule R116) -/

theorem bytePair_bytes_of_word (w : Word) : bytePair (w.extractLsb' 8 8) (w.extractLsb' 0 8) = w :=
  (BitVec.extractLsb'_append_extractLsb'_eq_extractLsb' rfl).trans BitVec.extractLsb'_eq_self

/-- The sum of the words of a padded buffer, taken around one whole word of it. -/
theorem wordSum_padEven_around_word {before : List Byte} (high low : Byte) (after : List Byte)
    (even : before.length % 2 = 0) :
    wordSum (padEven (before ++ [high, low] ++ after)) =
      wordSum before + wordSum (padEven after) + (bytePair high low).toNat := by
  have wordEven : (before ++ [high, low]).length % 2 = 0 := by
    rw [List.length_append]
    exact (Nat.add_mod_right _ 2).trans even
  rw [padEven_append after wordEven, wordSum_append _ _ wordEven,
    wordSum_append_word high low even, Nat.add_right_comm]

/-- A word in a whole word's place adds to the sum of the buffer with that place zero. -/
theorem ocSum_with_word {before : List Byte} (after : List Byte) (w : Word)
    (even : before.length % 2 = 0) :
    ocSum (before ++ [w.extractLsb' 8 8, w.extractLsb' 0 8] ++ after) =
      fold (ocSum (before ++ [0x00, 0x00] ++ after) + w.toNat) := by
  rw [ocSum, ocSum, wordSum_padEven_around_word _ _ after even,
    wordSum_padEven_around_word _ _ after even, bytePair_bytes_of_word, fold_fold_add]
  rfl

/-- Rule R116: the checksum and the sum it complements add up to 0xFFFF. -/
theorem checksum_with_own_checksum {before after : List Byte} {c : Word}
    (even : before.length % 2 = 0)
    (own : c.toNat = checksum (before ++ [0x00, 0x00] ++ after)) :
    checksum (before ++ [c.extractLsb' 8 8, c.extractLsb' 0 8] ++ after) = 0 := by
  have bound : ocSum (before ++ [0x00, 0x00] ++ after) ≤ 0xFFFF := fold_le _
  have ones : ocSum (before ++ [0x00, 0x00] ++ after) + c.toNat = 0xFFFF := by
    rw [own, checksum]
    omega
  rw [checksum, ocSum_with_word after c even, ones, fold_of_le le_rfl]

/-- Settles O48: the block shows the buffer's checksum, which is 0. -/
theorem selfVerification : Obligations.SelfVerification := by
  intro before after c even own
  have verified := checksum_with_own_checksum even own
  refine ⟨verified, fun cs stream => ?_⟩
  obtain ⟨t, run, accumulated⟩ := exists_acceptAll_resetEdge cs State.reset
  have csumZero : t.csum = 0x0000 := by
    rw [← toNat_eq_zero_iff, accumulated.csum_toNat, stream, verified]
  exact ⟨t, run, csumZero, t.zero_iff.mpr csumZero⟩

end Sys2Proof.Machine
end

section
/-! PROOF. The host's `fix!()` and its two ways to verify a message (rules R119 and R120). -/

namespace Sys2Proof.Machine

/-- A run of the host over commands that feed a buffer sets no error flag and ends in a state of that
buffer. -/
theorem Feeds.exists_clean_hostRun {cs : List Command} {bytes : List Byte} (h : Feeds cs bytes)
    (s : State) :
    ∃ t, hostRun cs s = .next t ∧ t.errorSeen = false ∧ AccumulatorOf bytes t := by
  obtain ⟨t, run, -, accumulated, flags⟩ :=
    exists_hostRun cs s fun c fed => (h.accepted c fed).2
  have fed : streamAfterAll [] cs = bytes := h.appends []
  have noneRejected : cs.any rejected = false :=
    List.any_eq_false.mpr fun c fed => Bool.eq_false_iff.mp (h.accepted c fed).1
  exact ⟨t, run, flags.trans noneRejected, fed ▸ accumulated⟩

theorem hostChecksum_of_clean {cs : List Command} {s t : State} (run : hostRun cs s = .next t)
    (noError : t.errorSeen = false) : hostChecksum cs s = some t.csum := by
  simp [hostChecksum_of_hostRun run, noError]

/-- What `checksum!()` takes from the block is the checksum of the wire layout with the checksum bytes
zero, whatever state the block is in (rules R55 and R56). -/
theorem exists_hostChecksum_pseudoItems (m : IcmpMessage) (s : State) :
    ∃ t, hostChecksum (itemsCommands m.pseudoItems) s = some t.csum ∧
      AccumulatorOf ({ m with checksum := 0x0000 }).wireBytes t := by
  obtain ⟨t, run, noError, accumulated⟩ := (feeds_itemsWith m 0x0000).exists_clean_hostRun s
  exact ⟨t, hostChecksum_of_clean run noError, accumulated⟩

theorem verify_of_hostChecksum {m : IcmpMessage} {s : State} {c : Word}
    (taken : hostChecksum (itemsCommands m.pseudoItems) s = some c) :
    m.verify s = some (c == m.checksum) := by
  rw [IcmpMessage.verify, taken, Option.map_some]

theorem fix_of_hostChecksum {m : IcmpMessage} {s : State} {c : Word}
    (taken : hostChecksum (itemsCommands m.pseudoItems) s = some c) :
    m.fix s = some { m with checksum := c } := by
  rw [IcmpMessage.fix, IcmpMessage.computeChecksum, taken, Option.map_some]

/-- The block fed the message with its stored checksum in place (rule R119, method b). -/
theorem exists_verifyByZero (m : IcmpMessage) (s : State) :
    ∃ t : State, m.verifyByZero s = some t.zero ∧ AccumulatorOf m.wireBytes t := by
  obtain ⟨t, run, noError, accumulated⟩ := (feeds_itemsWith m m.checksum).exists_clean_hostRun s
  refine ⟨t, ?_, accumulated⟩
  rw [IcmpMessage.verifyByZero, run]
  exact if_neg (Bool.eq_false_iff.mp noError)

/-- Settles O57: the pseudo-buffer does not hold the checksum, so both operations take the same
value. -/
theorem fixThenVerifyIsTrue : Obligations.FixThenVerifyIsTrue := by
  intro m s u
  obtain ⟨t, fixTakes, ofFix⟩ := exists_hostChecksum_pseudoItems m s
  obtain ⟨v, verifyTakes, ofVerify⟩ := exists_hostChecksum_pseudoItems m u
  have same : v.csum = t.csum :=
    BitVec.eq_of_toNat_eq (ofVerify.csum_toNat.trans ofFix.csum_toNat.symm)
  refine ⟨_, fix_of_hostChecksum fixTakes, ?_, rfl, ofFix.csum_toNat⟩
  rw [verify_of_hostChecksum (m := { m with checksum := t.csum }) verifyTakes, same,
    beq_self_eq_true]

/-- The checksum is a whole word of the wire layout, at offset 2 (rule R54). -/
theorem wireBytes_around_checksum (m : IcmpMessage) (c : Word) :
    ({ m with checksum := c }).wireBytes =
      [m.type, m.code] ++ [c.extractLsb' 8 8, c.extractLsb' 0 8] ++
        (m.body.wireBytes ++ m.payload) := List.append_assoc _ _ _

/-- The stored checksum adds to the sum of the wire layout with the checksum bytes zero. -/
theorem sum_of_stored_checksum {m : IcmpMessage} {t v : State}
    (zeroed : AccumulatorOf ({ m with checksum := 0x0000 }).wireBytes t)
    (stored : AccumulatorOf m.wireBytes v) : v.sum = ocAdd t.sum m.checksum := by
  apply BitVec.eq_of_toNat_eq
  rw [stored.sum_toNat, ocAdd_toNat, zeroed.sum_toNat, wireBytes_around_checksum m m.checksum,
    wireBytes_around_checksum]
  exact ocSum_with_word (before := [m.type, m.code]) (m.body.wireBytes ++ m.payload) m.checksum
    (Nat.mod_self 2)

/-- Settles O58: over the block the two answers are the two tests of `zeroTest_iff_comparison_iff` on
SUM and the stored checksum. -/
theorem zeroTestAgreesWithComparisonButOnce : Obligations.ZeroTestAgreesWithComparisonButOnce := by
  refine ⟨fun s c => ⟨zeroTest_iff_comparison_iff s c, ?exception⟩, fun m s u => ?block⟩
  case exception =>
    rintro rfl rfl
    exact ⟨by decide, not_ones_ne_ones⟩
  case block =>
    obtain ⟨t, taken, zeroed⟩ := exists_hostChecksum_pseudoItems m s
    obtain ⟨v, shown, stored⟩ := exists_verifyByZero m u
    have comparison : (t.csum == m.checksum) = true ↔ ~~~t.sum = m.checksum := beq_iff_eq
    have zeroTest : v.zero = true ↔ ocAdd t.sum m.checksum = 0xFFFF := by
      rw [v.zero_iff, v.csum_eq_zero_iff, sum_of_stored_checksum zeroed stored]
    refine ⟨t.sum, _, _, zeroed.sum_toNat, verify_of_hostChecksum taken, shown, ?_,
      fun sumOnes storedOnes => ⟨?_, ?_⟩⟩
    · rw [← zeroTest_iff_comparison_iff, Bool.eq_iff_iff, comparison, zeroTest]
      exact Iff.comm
    · rw [Bool.eq_false_iff, Ne, comparison, sumOnes, storedOnes]
      exact not_ones_ne_ones
    · rw [zeroTest, sumOnes, storedOnes]
      decide

end Sys2Proof.Machine
end

section
/-! PROOF. Errors (rules R130 to R136): they never stop a defined block, which flag a command sets,
that flags stay set and no command reads them, and the step that takes a reserved CMD (R154). -/

namespace Sys2Proof.Machine

/-! ### A defined block never stops (rules R130 and R154) -/

theorem defined_of_accept {c : Command} {s t : State} (defined : s.defined = true)
    (next : accept c s = .next t) : t.defined = true :=
  keptAlongStream_defined.of_accept (stream := []) defined next

theorem exec_input {i : Instr} {s t : State} (next : exec i s = .next t) : t.input = s.input :=
  accept_input ((accept_of_ok s (decode_encode i)).trans next)

theorem accepts_eq_true_iff (p : PortSample) :
    p.accepts = true ↔ p.rst = false ∧ p.cmdValid = true := by
  simp [PortSample.accepts]

/-- The edges before the command keep the state defined, so the command has a next state. -/
theorem advanceFrom_next_of_defined {ps : List PortSample} {s : State} (defined : s.defined = true)
    (command : ∃ p ∈ ps, p.accepts = true) :
    ∃ t, advanceFrom ps s = .next t ∧ t.defined = true := by
  induction ps generalizing s with
  | nil => simp at command
  | cons p ps ih =>
    cases accepted : p.accepts with
    | true =>
      obtain ⟨t, next⟩ := accept_next_of_defined ⟨p.cmd, p.data⟩ (s := s.withInput ps) defined
      exact ⟨t, (advanceFrom_accepts ps s accepted).trans next,
        defined_of_accept (s := s.withInput ps) defined next⟩
    | false =>
      have laterCommand : ∃ q ∈ ps, q.accepts = true := by simpa [accepted] using command
      have stillDefined : (if p.rst then resetEdge s else s).defined = true := by
        split_ifs
        · rfl
        · exact defined
      rw [advanceFrom_quiet ps s accepted]
      exact ih stillDefined laterCommand

/-- Settles O11: edges keep a defined state, and so do the edges inside a step; a command leaves the
samples to come alone. -/
theorem definedBlockNeverStops : Obligations.DefinedBlockNeverStops := by
  refine ⟨fun ps s defined => ?edges, fun s defined command => ?step, fun i s defined => ?command⟩
  case edges =>
    obtain ⟨t, run, stillDefined, -⟩ :=
      keptAlongStream_defined.of_clockEdges ps (stream := []) defined defined
    exact ⟨t, run, stillDefined⟩
  case step =>
    simp only [← accepts_eq_true_iff] at command
    exact advanceFrom_next_of_defined defined command
  case command =>
    obtain ⟨t, next⟩ := exec_next_of_defined i defined
    exact ⟨t, next, exec_input next⟩

/-! ### What a command does to the flags -/

/-- An ADD with DATA too wide for it (rules R64 and R132). -/
structure RangeError (i : Instr) : Prop where
  ne_nop : ∀ d, i ≠ .nop d
  ne_clear : ∀ d, i ≠ .clear d
  tooWide : inRange (byteCount i) i.data = false

/-- The four things a command can do to the error flags. -/
inductive FlagEffect (c : Command) (s t : State) : Prop where
  | illegal (r : Reserved) (reserved : decode c = .error r)
      (illegal : t.errIllegal = true) (range : t.errRange = s.errRange)
  | range (i : Instr) (decoded : decode c = .ok i) (error : RangeError i)
      (illegal : t.errIllegal = s.errIllegal) (range : t.errRange = true)
  | cleared (d : Data) (decoded : decode c = .ok (.clear d))
      (illegal : t.errIllegal = false) (range : t.errRange = false)
  | kept (i : Instr) (decoded : decode c = .ok i) (ne_clear : ∀ d, i ≠ .clear d)
      (illegal : t.errIllegal = s.errIllegal) (range : t.errRange = s.errRange)

theorem flagEffect_of_accept {c : Command} {s t : State} (next : accept c s = .next t) :
    FlagEffect c s t := by
  obtain ⟨i, decoded, executed⟩ | ⟨⟨r, reserved⟩, -, rfl⟩ := accept_cases next
  · obtain ⟨⟨d, rfl⟩, rfl⟩ | ⟨notClear, -, ⟨-, rfl⟩ | ⟨-, rfl⟩ | ⟨notNop, tooWide, rfl⟩⟩ :=
      exec_cases executed
    · exact .cleared d decoded rfl rfl
    · exact .kept i decoded notClear (appendBytes_errIllegal _ s) (appendBytes_errRange _ s)
    · exact .kept i decoded notClear rfl rfl
    · exact .range i decoded ⟨notNop, notClear, tooWide⟩ rfl rfl
  · exact .illegal r reserved rfl rfl

/-! ### ERR_ILLEGAL (rule R131) -/

theorem accept_reserved {c : Command} {r : Reserved} {s : State} (reserved : decode c = .error r)
    (defined : s.defined = true) : accept c s = .next (reportIllegal s) :=
  (accept_of_error s reserved).trans (whenDefined_of_defined _ defined)

/-- Settles O25: of the four effects only that of a reserved CMD sets the flag. -/
theorem onlyReservedCommandsSetErrIllegal : Obligations.OnlyReservedCommandsSetErrIllegal := by
  refine ⟨fun c r s => accept_reserved, fun c s t next wasClear isSet => ?_,
    count_decode_isNone 0⟩
  cases flagEffect_of_accept next with
  | illegal r reserved => exact ⟨r, reserved⟩
  | cleared d decoded illegal => simp [illegal] at isSet
  | range i decoded error illegal | kept i decoded notClear illegal =>
    simp [illegal, wasClear] at isSet

/-! ### ERR_RANGE (rule R132) -/

theorem inRange_eq_false_iff (n : Nat) (d : Data) :
    inRange n d = false ↔ 2 ^ (8 * n) ≤ d.toNat := by
  rw [← Nat.not_lt, ← inRange_iff, Bool.not_eq_true]

theorem byteCount_addOfNm1 (n : BitVec 2) (d : Data) : byteCount (addOfNm1 n d) = n.toNat + 1 := by
  have values : n = 0 ∨ n = 1 ∨ n = 2 ∨ n = 3 := by revert n; decide
  obtain rfl | rfl | rfl | rfl := values <;> rfl

/-- A too wide ADD sets ERR_RANGE and appends no byte. -/
theorem wideAdd_effect (n : BitVec 2) {d : Data} {s : State} (stream : List Byte)
    (defined : s.defined = true) (tooWide : 2 ^ (8 * (n.toNat + 1)) ≤ d.toNat) :
    exec (addOfNm1 n d) s = .next (reportRange s) ∧
      streamAfter stream (encode (addOfNm1 n d)) = stream := by
  have noBytes : appendedBytes (addOfNm1 n d) = [] := by
    rw [appendedBytes_eq, byteCount_addOfNm1, addOfNm1_data, (inRange_eq_false_iff _ d).mpr tooWide]
    rfl
  refine ⟨(exec_addOfNm1 n d s).trans (addCommand_of_le _ defined tooWide), ?_⟩
  rw [streamAfter_ok stream (decode_encode _) (addOfNm1_ne_clear n d), noBytes, List.append_nil]

/-- The range errors are those of ADD8, ADD16 and ADD24: every DATA fits ADD32. -/
theorem RangeError.width {i : Instr} (error : RangeError i) :
    ∃ d : Data, (i = .add8 d ∧ 2 ^ 8 ≤ d.toNat) ∨ (i = .add16 d ∧ 2 ^ 16 ≤ d.toNat) ∨
      (i = .add24 d ∧ 2 ^ 24 ≤ d.toNat) := by
  obtain ⟨notNop, notClear, tooWide⟩ := error
  have wide : 2 ^ (8 * byteCount i) ≤ i.data.toNat := (inRange_eq_false_iff _ _).mp tooWide
  cases i with
  | nop d => exact absurd rfl (notNop d)
  | clear d => exact absurd rfl (notClear d)
  | add8 d => exact ⟨d, .inl ⟨rfl, wide⟩⟩
  | add16 d => exact ⟨d, .inr (.inl ⟨rfl, wide⟩)⟩
  | add24 d => exact ⟨d, .inr (.inr ⟨rfl, wide⟩)⟩
  | add32 d => exact absurd d.isLt (Nat.not_lt.mpr wide)

/-- Settles O26: the ADDs of one, two and three bytes by `wideAdd_effect`; of the four effects only
that of a range error sets the flag. -/
theorem onlyWideDataSetsErrRange : Obligations.OnlyWideDataSetsErrRange := by
  refine ⟨fun d s stream defined => ⟨wideAdd_effect 0 stream defined,
    wideAdd_effect 1 stream defined, wideAdd_effect 2 stream defined⟩,
    fun c s t next wasClear isSet => ?_⟩
  cases flagEffect_of_accept next with
  | range i decoded error =>
    simp only [decoded, Except.ok.injEq]
    exact error.width
  | cleared d decoded illegal range => simp [range] at isSet
  | illegal r reserved illegal range | kept i decoded notClear illegal range =>
    simp [range, wasClear] at isSet

/-! ### One error per command, and sticky flags (rules R134 and R135) -/

/-- Settles O27: none of the four effects sets both flags; a reserved CMD has the first and CLEAR the
third, and NOP is neither a range error nor a CLEAR. -/
theorem atMostOneErrorPerCommand : Obligations.AtMostOneErrorPerCommand := by
  intro c s t next
  cases flagEffect_of_accept next with
  | illegal r reserved illegal range => simp +contextual [reserved, illegal, range]
  | range i decoded error illegal range =>
    simp +contextual [decoded, illegal, range, error.ne_nop, error.ne_clear]
  | cleared d decoded illegal range => simp [decoded, illegal, range]
  | kept i decoded notClear illegal range => simp [decoded, illegal, range, notClear]

/-- A command other than CLEAR keeps a set flag. -/
theorem errors_kept_of_accept {c : Command} {s t : State} (next : accept c s = .next t)
    (notClear : c.cmd ≠ 0x01) : (s.errIllegal = true → t.errIllegal = true) ∧
      (s.errRange = true → t.errRange = true) := by
  cases flagEffect_of_accept next with
  | illegal r reserved illegal range => exact ⟨fun _ => illegal, range.trans⟩
  | range i decoded error illegal range => exact ⟨illegal.trans, fun _ => range⟩
  | cleared d decoded => exact absurd (cmd_of_decode_clear decoded) notClear
  | kept i decoded notClear illegal range => exact ⟨illegal.trans, range.trans⟩

/-- Settles O28: an edge accepts a command, resets, or leaves the state; reset and CLEAR both end in
the state of `resetEdge`. -/
theorem errorFlagsAreSticky : Obligations.ErrorFlagsAreSticky := by
  refine ⟨fun p s t next notReset notClear => ?kept,
    fun p s cleared => ⟨resetEdge s, ?cleared, rfl, rfl⟩⟩
  case kept =>
    obtain ⟨reset, -⟩ | ⟨-, valid, accepted⟩ | ⟨-, -, rfl⟩ := clockEdge_cases next
    · simp [notReset] at reset
    · exact errors_kept_of_accept accepted fun isClear => notClear ⟨valid, isClear⟩
    · exact ⟨id, id⟩
  case cleared =>
    obtain ⟨rst, valid, cmd, data⟩ := p
    cases rst with
    | true => exact clockEdge_of_rst s rfl
    | false =>
      obtain ⟨rfl, rfl⟩ := cleared.resolve_left Bool.false_ne_true
      exact clockEdge_clear data s

/-! ### No command reads the flags (rule R136) -/

/-- The state with other error flags. -/
def State.withErrors (illegal range : Bool) (s : State) : State :=
  { s with errIllegal := illegal, errRange := range }

theorem byteStep_withErrors (illegal range : Bool) (s : State) (b : Byte) :
    byteStep (s.withErrors illegal range) b = (byteStep s b).withErrors illegal range := by
  cases odd : s.odd
  · rw [byteStep_even b odd, byteStep_even (s := s.withErrors illegal range) b odd]; rfl
  · rw [byteStep_odd b odd, byteStep_odd (s := s.withErrors illegal range) b odd]; rfl

theorem appendBytes_withErrors (illegal range : Bool) (bs : List Byte) (s : State) :
    appendBytes bs (s.withErrors illegal range) =
      (appendBytes bs s).withErrors illegal range := by
  induction bs generalizing s with
  | nil => rfl
  | cons b bs ih => rw [appendBytes_cons, byteStep_withErrors, ih, appendBytes_cons]

section OtherErrors

variable {s t : State} (illegal range : Bool)

theorem addCommand_withErrors {n : Nat} {d : Data} (next : addCommand n d s = .next t) :
    ∃ newIllegal newRange, addCommand n d (s.withErrors illegal range) =
      .next (t.withErrors newIllegal newRange) := by
  obtain ⟨defined, ⟨fits, rfl⟩ | ⟨tooWide, rfl⟩⟩ := addCommand_cases next
  · refine ⟨illegal, range, ?_⟩
    rw [← appendBytes_withErrors]
    exact addCommand_of_lt n (s := s.withErrors illegal range) defined ((inRange_iff n d).mp fits)
  · exact ⟨illegal, true, addCommand_of_le n (s := s.withErrors illegal range) defined
      ((inRange_eq_false_iff n d).mp tooWide)⟩

theorem exec_withErrors {i : Instr} (next : exec i s = .next t) :
    ∃ newIllegal newRange, exec i (s.withErrors illegal range) =
      .next (t.withErrors newIllegal newRange) := by
  cases i with
  | nop d =>
    obtain ⟨defined, rfl⟩ := whenDefined_next next
    exact ⟨illegal, range, exec_nop_of_defined d (s := t.withErrors illegal range) defined⟩
  | clear d =>
    obtain rfl := Host.Outcome.next.inj next
    exact ⟨false, false, exec_clear d _⟩
  | add8 d | add16 d | add24 d | add32 d => exact addCommand_withErrors illegal range next

/-- A command accepted with other error flags leads to a state that again differs in them only. -/
theorem accept_withErrors {c : Command} (next : accept c s = .next t) :
    ∃ newIllegal newRange, accept c (s.withErrors illegal range) =
      .next (t.withErrors newIllegal newRange) := by
  obtain ⟨i, decoded, executed⟩ | ⟨⟨r, reserved⟩, defined, rfl⟩ := accept_cases next
  · rw [accept_of_ok _ decoded]
    exact exec_withErrors illegal range executed
  · exact ⟨true, range, accept_reserved (s := s.withErrors illegal range) reserved defined⟩

end OtherErrors

/-- Settles O29: the second run ends in the state of the first with other error flags, which SUM and
CSUM do not read. -/
theorem errorsDoNotChangeLaterCommands : Obligations.ErrorsDoNotChangeLaterCommands := by
  intro c s illegal range defined
  obtain ⟨t, next⟩ := accept_next_of_defined c defined
  obtain ⟨newIllegal, newRange, again⟩ := accept_withErrors illegal range next
  exact ⟨t, t.withErrors newIllegal newRange, next, again, rfl, rfl, rfl, rfl, rfl⟩

/-! ### The step that takes a reserved CMD (rules R131, R150 and R154) -/

/-- Edges that accept no command pass inside the step: together they reset the block or leave it. -/
theorem advanceFrom_append_quiet {before : List PortSample} (after : List PortSample) (s : State)
    (quiet : ∀ q ∈ before, q.accepts = false) : advanceFrom (before ++ after) s =
      advanceFrom after (if ∃ q ∈ before, q.rst = true then resetEdge s else s) := by
  induction before generalizing s with
  | nil => simp
  | cons p before ih =>
    obtain ⟨pQuiet, laterQuiet⟩ := List.forall_mem_cons.mp quiet
    rw [List.cons_append, advanceFrom_quiet _ s pQuiet, ih _ laterQuiet]
    cases rst : p.rst with
    | false => simp [rst]
    | true =>
      have resetTwice : resetEdge (resetEdge s) = resetEdge s := rfl
      simp [rst, resetTwice]

section StepTakesCommand

variable {before rest : List PortSample} {p : PortSample} {s : State}
  (quiet : ∀ q ∈ before, q.accepts = false) (accepted : p.accepts = true)
  (presented : s.input = before ++ p :: rest)
include quiet accepted presented

/-- With only idle edges before it, the command is accepted in the state the step starts from. -/
theorem step_takes_command (noReset : ∀ q ∈ before, q.rst = false) :
    step s = accept ⟨p.cmd, p.data⟩ { s with input := rest } := by
  have noneResets : ¬∃ q ∈ before, q.rst = true := by simpa using noReset
  rw [step, advance, presented, advanceFrom_append_quiet _ s quiet, if_neg noneResets,
    advanceFrom_accepts rest s accepted]

/-- With a reset edge before it, the command is accepted in the reset state. -/
theorem step_takes_command_after_reset (reset : ∃ q ∈ before, q.rst = true) :
    step s = accept ⟨p.cmd, p.data⟩ { State.reset with input := rest } := by
  rw [step, advance, presented, advanceFrom_append_quiet _ s quiet, if_pos reset,
    advanceFrom_accepts rest _ accepted]
  rfl

end StepTakesCommand

/-- Settles O7: the step is the acceptance of the reserved CMD, in the state it starts from or in
the reset state. -/
theorem stepOfReservedCommandReportsIllegal : Obligations.StepOfReservedCommandReportsIllegal := by
  intro before rest p r s quiet notReset valid presented reserved
  simp only [← accepts_eq_false_iff] at quiet
  have accepted : p.accepts = true := (accepts_eq_true_iff p).mpr ⟨notReset, valid⟩
  refine ⟨fun noReset => ?_, fun reset => ?_⟩
  · rw [step_takes_command quiet accepted presented noReset, accept_of_error _ reserved]
    exact ⟨whenDefined_of_defined _, whenDefined_of_undefined _⟩
  · rw [step_takes_command_after_reset quiet accepted presented reset]
    exact accept_reserved reserved rfl

end Sys2Proof.Machine
end

section
/-! PROOF. Reset edges, idle edges and steps (rules R84, R150, R154 and R155): what an edge and a step
do, and that as many steps can be taken as commands are presented. -/

namespace Sys2Proof.Machine

/-! ### Edges that accept no command (rules R84 and R150) -/

@[simp] theorem resetEdge_resetEdge (s : State) : resetEdge (resetEdge s) = resetEdge s := rfl

/-- Settles O8: a reset edge never looks at the command, and leads from the reset state to itself. -/
theorem resetEdgeGivesResetState : Obligations.ResetEdgeGivesResetState := by
  intro p q s pResets qResets
  exact ⟨resetEdge s, clockEdge_of_rst s pResets, rfl, rfl, rfl, rfl, rfl, rfl,
    (clockEdge_of_rst (resetEdge s) qResets).trans (congrArg _ (resetEdge_resetEdge s))⟩

/-- Together such edges reset the block or leave it. -/
theorem clockEdges_of_quiet {ps : List PortSample} (s : State)
    (quiet : ∀ q ∈ ps, q.accepts = false) :
    clockEdges ps s = .next (if ∃ q ∈ ps, q.rst = true then resetEdge s else s) := by
  induction ps generalizing s with
  | nil => simp [clockEdges]
  | cons p ps ih =>
    obtain ⟨pQuiet, laterQuiet⟩ := List.forall_mem_cons.mp quiet
    rw [clockEdges_cons ps (clockEdge_of_quiet s pQuiet), ih _ laterQuiet]
    cases rst : p.rst with
    | false => simp [rst]
    | true => simp [rst]

/-- Settles O9: the samples to come hold no command, so there is no step, and their edges together
reset the block or leave it. -/
theorem noStepWithoutACommand : Obligations.NoStepWithoutACommand := by
  intro s quiet
  simp only [← accepts_eq_false_iff] at quiet
  refine ⟨advanceFrom_of_no_command s quiet, fun noReset => ?_, fun reset => ?_⟩
  · have noneResets : ¬∃ q ∈ s.input, q.rst = true := by simpa using noReset
    rw [clockEdges_of_quiet s quiet, if_neg noneResets]
  · rw [clockEdges_of_quiet s quiet, if_pos reset]
    rfl

/-! ### The step that takes a command (rule R154) -/

/-- Settles O5: the step is the acceptance of the command, in the state it starts from or in the
reset state, and acceptance runs what the decoder reads. -/
theorem stepRunsTheDecodedCommand : Obligations.StepRunsTheDecodedCommand := by
  intro before rest p i s quiet notReset valid presented decoded
  simp only [← accepts_eq_false_iff] at quiet
  have accepted : p.accepts = true := (accepts_eq_true_iff p).mpr ⟨notReset, valid⟩
  exact ⟨fun noReset =>
      (step_takes_command quiet accepted presented noReset).trans (accept_of_ok _ decoded),
    fun reset =>
      (step_takes_command_after_reset quiet accepted presented reset).trans (accept_of_ok _ decoded)⟩

/-! ### What the outputs show (rule R155) -/

theorem readOutputs_of_defined {s : State} (h : s.defined = true) :
    readOutputs s = .ok s.outputs := if_pos h

theorem defined_of_clockEdge {p : PortSample} {s t : State} (defined : s.defined = true)
    (edge : clockEdge p s = .next t) : t.defined = true :=
  keptAlongStream_defined.of_clockEdge (stream := []) defined edge

/-- Settles O37: a cycle shows a read of the state before its edge, and the edge keeps the state
defined. -/
theorem outputsShowTheStateBeforeTheEdge : Obligations.OutputsShowTheStateBeforeTheEdge := by
  intro p q s defined
  obtain ⟨t, edge⟩ := clockEdge_next_of_defined p defined
  have stillDefined : t.defined = true := defined_of_clockEdge defined edge
  exact ⟨readOutputs_of_defined defined, rfl, t, edge, readOutputs_of_defined stillDefined⟩

/-! ### As many steps as commands (rule R154) -/

theorem exists_next_of_andThen {σ φ ρ : Type} {o : Host.Outcome σ φ ρ}
    {f : σ → Host.Outcome σ φ ρ} {u : σ} (h : andThen o f = .next u) : ∃ t, o = .next t := by
  cases o with
  | next t => exact ⟨t, rfl⟩
  | fault r | refused r => simp [andThen] at h

theorem edgesToCome_next_of_defined {s : State} (defined : s.defined = true) :
    ∃ u, edgesToCome s = .next u := by
  obtain ⟨u, edges, -⟩ := keptAlongStream_defined.of_clockEdges s.input (stream := [])
    (s := s.withInput []) defined defined
  exact ⟨u, edges⟩

/-- A step needs a command to take. Where there are enough, the steps and the edges left after them
give what all the edges give from the start, which in a defined state is a next state. -/
theorem runSteps_next_iff {s : State} (defined : s.defined = true) (k : Nat) :
    (∃ t, runSteps k s = .next t) ↔ k ≤ s.input.countP PortSample.accepts := by
  constructor
  · rintro ⟨t, run⟩
    have used := runSteps_countP run
    omega
  · intro enough
    obtain ⟨u, edges⟩ := edgesToCome_next_of_defined defined
    exact exists_next_of_andThen ((runSteps_edgesToCome enough).trans edges)

/-- Settles O52: an edge is the acceptance of its command or passes idle, and the steps that can be
taken are counted by `runSteps_next_iff`. -/
theorem oneStepPerAcceptedCommand : Obligations.OneStepPerAcceptedCommand := by
  refine ⟨fun _ => rfl, fun p s notReset valid => ?command,
    fun p s notReset idle => clockEdge_of_idle s notReset idle, fun s k defined => ?steps⟩
  case command =>
    have accepted : p.accepts = true := (accepts_eq_true_iff p).mpr ⟨notReset, valid⟩
    rw [clockEdge_of_accepts s accepted]
    exact ⟨fun i decoded => accept_of_ok s decoded,
      fun r reserved defined => accept_reserved reserved defined⟩
  case steps =>
    rw [← List.countP_eq_length_filter]
    exact runSteps_next_iff defined k

end Sys2Proof.Machine
end
